-- ==== Sys2Proof/Word.lean ====
section
/-! DEFINITION. The numeric literals of the source, each in one named constant (00_scope.md R6, R8), and the bit
vectors of the hardware, one named type for each of these widths. The model writes every width and size through these
names; the widths of the records' text, R6's remaining literals, are in Machine/RecordText.lean. Statements and tests
write the spec's numbers out, so that a changed constant makes them fail. -/

namespace Sys2Proof

/-- `NREG`: the number of general registers (R8, R100). -/
@[simp] abbrev NREG : Nat := 8

/-- `XLEN`: the bits of a register, a memory cell and an instruction word (R8, R100, R200, R300). -/
@[simp] abbrev XLEN : Nat := 16

/-- `MEMWORDS`: the number of memory cells (R8, R200). -/
@[simp] abbrev MEMWORDS : Nat := 8192

/-- `AW`: the bits of a memory address (R8, R200). -/
@[simp] abbrev AW : Nat := 13

/-- The bits of the opcode (R301). -/
@[simp] abbrev OPCODEBITS : Nat := 3

/-- The bits of a register field (R302). -/
@[simp] abbrev REGBITS : Nat := 3

/-- The bits of the function code (R303). -/
@[simp] abbrev FUNCBITS : Nat := 4

/-- The bits of the 7-bit immediate (R304). -/
@[simp] abbrev IMM7BITS : Nat := 7

/-- The bits of the 13-bit immediate (R305). -/
@[simp] abbrev IMM13BITS : Nat := 13

/-- A register, a memory cell, an instruction word and the pc (R100, R110, R200, R300). -/
abbrev Word := BitVec XLEN

/-- A word address (R200). -/
abbrev Addr := BitVec AW

/-- The number of a general register (R100). -/
abbrev RegIdx := Fin NREG

/-- `w[15:13]` (R301). -/
abbrev Opcode := BitVec OPCODEBITS

/-- `w[3:0]` (R303). -/
abbrev FuncCode := BitVec FUNCBITS

/-- The 7-bit immediate (R304). -/
abbrev Imm7 := BitVec IMM7BITS

/-- The 13-bit immediate (R305). -/
abbrev Imm13 := BitVec IMM13BITS

end Sys2Proof
end

