-- ==== Sys2Proof/Syntax.lean ====
section
/-! DEFINITION. The thirteen instructions (00_scope.md R3), one constructor per row of spec/opcode_table.json, the
fields named by their roles (10_state.md R103). Register numbers and immediates have exactly their field's range, so
every term is an instruction the encoding admits. -/

namespace Sys2Proof

inductive Instr where
  /-- `add $dst, $srcA, $srcB` (R400): D, A, B. -/
  | add (dst srcA srcB : RegIdx)
  /-- `sub $dst, $srcA, $srcB` (R401). -/
  | sub (dst srcA srcB : RegIdx)
  /-- `or $dst, $srcA, $srcB` (R402). -/
  | or (dst srcA srcB : RegIdx)
  /-- `and $dst, $srcA, $srcB` (R403). -/
  | and (dst srcA srcB : RegIdx)
  /-- `slt $dst, $srcA, $srcB` (R404). -/
  | slt (dst srcA srcB : RegIdx)
  /-- `jr $target` (R405): A; the ignored bits 9..4 are no part of the instruction (R331). -/
  | jr (target : RegIdx)
  /-- `addi $dst, $src, imm` (R450): B, A, imm7. -/
  | addi (dst src : RegIdx) (imm : Imm7)
  /-- `j target` (R500): imm13. -/
  | j (target : Imm13)
  /-- `jal target` (R510): imm13. -/
  | jal (target : Imm13)
  /-- `lw $dst, imm($base)` (R550): B, A, imm7. -/
  | lw (dst base : RegIdx) (imm : Imm7)
  /-- `sw $value, imm($base)` (R560): B, A, imm7. -/
  | sw (value base : RegIdx) (imm : Imm7)
  /-- `jeq $srcA, $srcB, offset` (R520): A, B, imm7. -/
  | jeq (srcA srcB : RegIdx) (offset : Imm7)
  /-- `slti $dst, $src, imm` (R451): B, A, imm7. -/
  | slti (dst src : RegIdx) (imm : Imm7)
  deriving DecidableEq, Repr

end Sys2Proof
end

