-- ==== Sys2Proof/Decode.lean ====
section
/-! DEFINITION. Decoding and encoding (spec/30_encoding.md). The opcode values, the function codes and the field
positions each stand in one place (R321). The decoder is total on the 65536 words and rejects by the name
`reserved` (R330, R333). Field positions, function codes and field roles are the spec's decisions D2, D3, D6,
UNVERIFIED by its source (log 6). -/

namespace Sys2Proof

/-! ### The values of the opcode map (R320) -/

@[simp] abbrev opRegister : Opcode := 0b000#OPCODEBITS
@[simp] abbrev opAddi : Opcode := 0b001#OPCODEBITS
@[simp] abbrev opJ : Opcode := 0b010#OPCODEBITS
@[simp] abbrev opJal : Opcode := 0b011#OPCODEBITS
@[simp] abbrev opLw : Opcode := 0b100#OPCODEBITS
@[simp] abbrev opSw : Opcode := 0b101#OPCODEBITS
@[simp] abbrev opJeq : Opcode := 0b110#OPCODEBITS
@[simp] abbrev opSlti : Opcode := 0b111#OPCODEBITS

@[simp] abbrev fnAdd : FuncCode := 0b0000#FUNCBITS
@[simp] abbrev fnSub : FuncCode := 0b0001#FUNCBITS
@[simp] abbrev fnOr : FuncCode := 0b0010#FUNCBITS
@[simp] abbrev fnAnd : FuncCode := 0b0011#FUNCBITS
@[simp] abbrev fnSlt : FuncCode := 0b0100#FUNCBITS
@[simp] abbrev fnJr : FuncCode := 0b1000#FUNCBITS

/-! ### The fields of a word (R301 … R305) -/

/-- `w[15:13]` (R301). -/
def opcodeOf (w : Word) : Opcode := w.extractLsb' 13 OPCODEBITS

/-- `A = w[12:10]` (R302). -/
def fieldA (w : Word) : RegIdx := (w.extractLsb' 10 REGBITS).toFin

/-- `B = w[9:7]` (R302). -/
def fieldB (w : Word) : RegIdx := (w.extractLsb' 7 REGBITS).toFin

/-- `D = w[6:4]` (R302). -/
def fieldD (w : Word) : RegIdx := (w.extractLsb' 4 REGBITS).toFin

/-- `func = w[3:0]` (R303). -/
def funcOf (w : Word) : FuncCode := w.extractLsb' 0 FUNCBITS

/-- `imm7 = w[6:0]` (R304). -/
def imm7Of (w : Word) : Imm7 := w.extractLsb' 0 IMM7BITS

/-- `imm13 = w[12:0]` (R305). -/
def imm13Of (w : Word) : Imm13 := w.extractLsb' 0 IMM13BITS

/-! ### The decoder -/

/-- What a word decodes to (R320): one of the thirteen instructions, or `Reserved` with its function code (R330). -/
inductive Decoded where
  | instr (i : Instr)
  | reserved (func : FuncCode)
  deriving DecidableEq, Repr

/-- The three-register group, selected by the function code (R320, R321; R331 for jr's ignored bits). -/
def decodeRegister (w : Word) : Decoded :=
  if funcOf w = fnAdd then .instr (.add (fieldD w) (fieldA w) (fieldB w))
  else if funcOf w = fnSub then .instr (.sub (fieldD w) (fieldA w) (fieldB w))
  else if funcOf w = fnOr then .instr (.or (fieldD w) (fieldA w) (fieldB w))
  else if funcOf w = fnAnd then .instr (.and (fieldD w) (fieldA w) (fieldB w))
  else if funcOf w = fnSlt then .instr (.slt (fieldD w) (fieldA w) (fieldB w))
  else if funcOf w = fnJr then .instr (.jr (fieldA w))
  else .reserved (funcOf w)

/-- Decoding (R320, R333). -/
def decode (w : Word) : Decoded :=
  if opcodeOf w = opRegister then decodeRegister w
  else if opcodeOf w = opAddi then .instr (.addi (fieldB w) (fieldA w) (imm7Of w))
  else if opcodeOf w = opJ then .instr (.j (imm13Of w))
  else if opcodeOf w = opJal then .instr (.jal (imm13Of w))
  else if opcodeOf w = opLw then .instr (.lw (fieldB w) (fieldA w) (imm7Of w))
  else if opcodeOf w = opSw then .instr (.sw (fieldB w) (fieldA w) (imm7Of w))
  else if opcodeOf w = opJeq then .instr (.jeq (fieldA w) (fieldB w) (imm7Of w))
  else .instr (.slti (fieldB w) (fieldA w) (imm7Of w))

/-- The instruction the decoder reads from an opcode-table row's bits: a word is one 16-bit memory cell, bit 0 its
least significant bit (R11, R300), so the `nbits` bits of `w` are the word itself; `none` for `Reserved`. -/
def decodeTableWord (nbits w : Nat) : Option Instr :=
  match decode (BitVec.ofNat XLEN (w % 2 ^ nbits)) with
  | .instr i => some i
  | .reserved _ => none

/-! ### The encoder -/

/-- A register number as its 3-bit field. -/
def regBits (r : RegIdx) : BitVec REGBITS := BitVec.ofFin r

/-- The R-format (R306): opcode 000, A, B, D, func. -/
def encodeR (a b d : RegIdx) (func : FuncCode) : Word :=
  opRegister ++ regBits a ++ regBits b ++ regBits d ++ func

/-- The I-format (R306): opcode, A, B, imm7. -/
def encodeI (op : Opcode) (a b : RegIdx) (imm : Imm7) : Word :=
  op ++ regBits a ++ regBits b ++ imm

/-- The J-format (R306): opcode, imm13. -/
def encodeJ (op : Opcode) (imm : Imm13) : Word :=
  op ++ imm

/-- The word of an instruction (R306, R320, R340; jr's ignored bits are written as zeros, R340). -/
def encode : Instr → Word
  | .add d a b => encodeR a b d fnAdd
  | .sub d a b => encodeR a b d fnSub
  | .or d a b => encodeR a b d fnOr
  | .and d a b => encodeR a b d fnAnd
  | .slt d a b => encodeR a b d fnSlt
  | .jr a => encodeR a 0 0 fnJr
  | .addi b a imm => encodeI opAddi a b imm
  | .j imm => encodeJ opJ imm
  | .jal imm => encodeJ opJal imm
  | .lw b a imm => encodeI opLw a b imm
  | .sw b a imm => encodeI opSw a b imm
  | .jeq a b imm => encodeI opJeq a b imm
  | .slti b a imm => encodeI opSlti a b imm

/-! ### The opcode table of R320, as it is printed -/

/-- A row: a word `w` matches it when `(w AND mask) = pattern` (R320). -/
structure OpRow where
  mnemonic : String
  pattern : Word
  mask : Word
  deriving DecidableEq, Repr

/-- R320's table, row by row. -/
def opcodeTable : List OpRow :=
  [ ⟨"add", 0x0000#XLEN, 0xE00F#XLEN⟩, ⟨"sub", 0x0001#XLEN, 0xE00F#XLEN⟩,
    ⟨"or", 0x0002#XLEN, 0xE00F#XLEN⟩, ⟨"and", 0x0003#XLEN, 0xE00F#XLEN⟩,
    ⟨"slt", 0x0004#XLEN, 0xE00F#XLEN⟩, ⟨"jr", 0x0008#XLEN, 0xE00F#XLEN⟩,
    ⟨"addi", 0x2000#XLEN, 0xE000#XLEN⟩ ] ++
  [ ⟨"j", 0x4000#XLEN, 0xE000#XLEN⟩, ⟨"jal", 0x6000#XLEN, 0xE000#XLEN⟩,
    ⟨"lw", 0x8000#XLEN, 0xE000#XLEN⟩, ⟨"sw", 0xA000#XLEN, 0xE000#XLEN⟩,
    ⟨"jeq", 0xC000#XLEN, 0xE000#XLEN⟩, ⟨"slti", 0xE000#XLEN, 0xE000#XLEN⟩ ]

/-- R320: "A word matches a row when `(w AND mask) = match`." -/
def OpRow.matchesWord (r : OpRow) (w : Word) : Bool := w &&& r.mask == r.pattern

/-- The instruction's mnemonic, its row's name in the table. -/
def Instr.mnemonic : Instr → String
  | .add _ _ _ => "add"
  | .sub _ _ _ => "sub"
  | .or _ _ _ => "or"
  | .and _ _ _ => "and"
  | .slt _ _ _ => "slt"
  | .jr _ => "jr"
  | .addi _ _ _ => "addi"
  | .j _ => "j"
  | .jal _ => "jal"
  | .lw _ _ _ => "lw"
  | .sw _ _ _ => "sw"
  | .jeq _ _ _ => "jeq"
  | .slti _ _ _ => "slti"

end Sys2Proof
end

