-- ==== Sys2Proof/Config.lean ====
section
/-! DEFINITION. What is fixed for a run: the types of the hardware's parameters (00_scope.md R7), with the values `State.reset` is configured with. The parameters' values stand in State
(10_state.md R150, R151: read-only configuration registers), so that a statement about every state is a statement
about every configuration. -/

namespace Sys2Proof

/-- The three configured integers of one cache, in 16-bit words (R7, R151, R208). `rowCount` is derived
(Machine/CacheArrays.lean). -/
structure CacheCfg where
  size : Nat
  assoc : Nat
  blockSize : Nat
  deriving DecidableEq, Repr

/-- `ON_RESERVED_FUNC` (R7, R330, R602): what executing an unassigned function code of opcode 000 does. -/
inductive OnReserved where
  | fault
  | nop
  deriving DecidableEq, Repr

/-- The two implementation parameters of R7 that are not cache sizes. -/
structure Params where
  /-- `SLT_SIGNED`: slt and slti compare signed (R404, R451). -/
  sltSigned : Bool
  /-- `ON_RESERVED_FUNC`. -/
  onReserved : OnReserved
  deriving DecidableEq, Repr

/-- The defaults R7 names: unsigned comparison, fault on a reserved function code (decisions D7, D4; log 3). -/
def Config.params : Params := ⟨false, .fault⟩

/-- DESIGN CHOICE (log 2): `State.reset` is configured as the source's two-level scenario is (95_test_vectors.md
SRC-7); the spec says only "as configured" (R180). -/
def Config.l1 : CacheCfg := ⟨4, 1, 2⟩

/-- DESIGN CHOICE (log 2): see `Config.l1`. -/
def Config.l2 : Option CacheCfg := some ⟨8, 4, 2⟩

end Sys2Proof
end

