-- ==== Sys2Proof/Machine/Memory.lean ====
section
/-! DEFINITION. The word memory (20_memory.md R200 … R207): a sparse list of (address, cell) pairs in one canonical
form. The cell is the hardware's smallest addressable unit, 16 bits; there is no byte view (R203; log 1). -/

namespace Sys2Proof.Machine

/-- Listed cells by address. -/
abbrev Memory := List (Nat × Word)

/-- What a cell that is not listed holds: 0 (10_state.md R180, the spec's decision D13; log 5). -/
def Memory.blank : Word := 0#XLEN

/-- The content of cell `k`, `k < MEMWORDS`. -/
def Memory.lookup : Memory → Nat → Word
  | [], _ => Memory.blank
  | (b, v) :: rest, k => if b = k then v else Memory.lookup rest k

/-- Lists cell `k` before the first listed address above it. -/
def Memory.insert (k : Nat) (v : Word) : Memory → Memory
  | [] => [(k, v)]
  | e :: es => if k < e.1 then (k, v) :: e :: es else e :: Memory.insert k v es

/-- Sets cell `k`, `k < MEMWORDS`: the old listing goes, and a value that is not blank is listed in its place. -/
def Memory.put (m : Memory) (k : Nat) (v : Word) : Memory :=
  let rest := m.filter (fun e => e.1 != k)
  if v = Memory.blank then rest else Memory.insert k v rest

/-- `MemRead(a)`: the cell at `a mod 8192` (R12, R201). -/
def Memory.read (m : Memory) (a : Nat) : Word := m.lookup (a % MEMWORDS)

/-- `MemWrite(a, v)`: sets the cell at `a mod 8192` (R12, R201). -/
def Memory.write (m : Memory) (a : Nat) (v : Word) : Memory := m.put (a % MEMWORDS) v

/-- The canonical form: addresses strictly rising and below 8192, no blank cell listed. -/
abbrev Memory.wf (m : Memory) : Prop :=
  m.Pairwise (fun x y => x.1 < y.1) ∧ ∀ e ∈ m, e.1 < MEMWORDS ∧ e.2 ≠ Memory.blank

/-- The words of an image placed at addresses `k`, `k + 1`, … (70_reset_and_hazards.md R712). -/
def Memory.ofImageFrom (k : Nat) : List Word → Memory
  | [] => []
  | w :: ws =>
    if w = Memory.blank then Memory.ofImageFrom (k + 1) ws else (k, w) :: Memory.ofImageFrom (k + 1) ws

/-- The memory of an image placed at address 0 (R206, R712). -/
def Memory.ofImage (ws : List Word) : Memory := Memory.ofImageFrom 0 ws

end Sys2Proof.Machine
end

