-- ==== Sys2Proof/Machine/CacheArrays.lean ====
section
/-! DEFINITION. The cache arrays (10_state.md R160, R161) and the address decomposition (20_memory.md R220). -/

namespace Sys2Proof

/-- `C.rowCount = C.size / (C.assoc × C.blockSize)`, derived and read-only (R8, R151). -/
def CacheCfg.rowCount (c : CacheCfg) : Nat := c.size / (c.assoc * c.blockSize)

/-- `blockId = address / blockSize` (R220). -/
def CacheCfg.blockId (c : CacheCfg) (a : Addr) : Nat := a.toNat / c.blockSize

/-- `row = blockId mod rowCount` (R220). -/
def CacheCfg.rowOf (c : CacheCfg) (a : Addr) : Nat := c.blockId a % c.rowCount

/-- `tag = blockId / rowCount` (R220). -/
def CacheCfg.tagOf (c : CacheCfg) (a : Addr) : Nat := c.blockId a / c.rowCount

namespace Machine

/-- One storage slot of a row (R160); it holds no data. -/
structure Way where
  occupied : Bool
  tag : Nat
  deriving DecidableEq, Repr

/-- A row (set): its ways by index, and the indices of its occupied ways, most recently used first (R160, R161). -/
structure Row where
  ways : List Way
  order : List Nat
  deriving DecidableEq, Repr

/-- A cache: its configuration registers (R151) and its rows (R160). -/
structure Cache where
  cfg : CacheCfg
  rows : List Row
  deriving DecidableEq, Repr

/-- An unoccupied way. R180 leaves its tag unspecified and lets a model use 0 (D23; log 12). -/
def Way.empty : Way := ⟨false, 0⟩

/-- A row of `assoc` unoccupied ways with an empty recency order (R180). -/
def Row.empty (assoc : Nat) : Row := ⟨List.replicate assoc Way.empty, []⟩

/-- A cache as constructed from its configuration (R180, R700 step 2). -/
def Cache.empty (c : CacheCfg) : Cache := ⟨c, List.replicate c.rowCount (Row.empty c.assoc)⟩

/-- Way `w` of a row exists and is occupied. -/
def Row.occupiedAt (R : Row) (w : Nat) : Bool := (R.ways.getD w Way.empty).occupied

/-- The stored tag of way `w`. -/
def Row.tagAt (R : Row) (w : Nat) : Nat := (R.ways.getD w Way.empty).tag

/-- Row `r` of a cache. A row that does not exist, which no well-formed cache addresses (R221), reads as an empty
row (log 13). -/
def Cache.rowAt (C : Cache) (r : Nat) : Row := C.rows.getD r (Row.empty C.cfg.assoc)

end Machine
end Sys2Proof
end

