-- ==== Sys2Proof/Machine/Records.lean ====
section
/-! DEFINITION. The records of the block's interfaces (00_scope.md R10; 20_memory.md R250, R252). -/

namespace Sys2Proof.Machine

/-- The cache a record is about. -/
inductive CacheId where
  | l1
  | l2
  deriving DecidableEq, Repr

/-- The closed status type HIT / MISS (R250; 90_conflicts.md C6: there is no other). -/
inductive HitMiss where
  | hit
  | miss
  deriving DecidableEq, Repr

/-- The kind of a request (R10). -/
inductive AccessKind where
  | load
  | store
  deriving DecidableEq, Repr

/-- `creq`: what the executor sends to the hierarchy, once per lw and once per sw (R10, R570); it carries no step
count (90_conflicts.md C3). -/
structure CacheRequest where
  kind : AccessKind
  addr : Addr
  pc : Word
  deriving DecidableEq, Repr

/-- `rec` (R10, R250). -/
structure AccessRecord where
  cache : CacheId
  status : HitMiss
  pc : Word
  addr : Addr
  row : Nat
  deriving DecidableEq, Repr

/-- `cfgrec` (R10, R252). -/
structure ConfigRecord where
  cache : CacheId
  size : Nat
  assoc : Nat
  blockSize : Nat
  rows : Nat
  deriving DecidableEq, Repr

/-- An entry of the output record stream (R175). -/
inductive Record where
  | config (r : ConfigRecord)
  | access (r : AccessRecord)
  deriving DecidableEq, Repr

/-- The ConfigRecord of one cache (R252). -/
def configRecord (id : CacheId) (c : CacheCfg) : Record :=
  .config ⟨id, c.size, c.assoc, c.blockSize, c.rowCount⟩

/-- The ConfigRecords of start-up: L1 first, then L2 if present (R252, the spec's decision D19). -/
def configRecords (c1 : CacheCfg) (c2 : Option CacheCfg) : List Record :=
  configRecord .l1 c1 :: (c2.map (configRecord .l2)).toList

end Sys2Proof.Machine
end

