-- ==== Sys2Proof/Machine/State.lean ====
section
/-! DEFINITION. The machine's state (the record at the head of spec/10_state.md, and the two parameters of
00_scope.md R7), the reasons a step can answer no next state, and the state after reset (R180). -/

namespace Sys2Proof.Machine

/-- The reason of `Faulted` (60_exceptions.md R601, R602). -/
inductive RunFault where
  /-- Code 1, raised by executing a `Reserved` word with `ON_RESERVED_FUNC = fault`: the pc and the word. -/
  | illegalInstruction (pc word : Word)
  deriving DecidableEq, Repr

/-- The run status (R140). -/
inductive Status where
  | running
  | halted
  | faulted (why : RunFault)
  deriving DecidableEq, Repr

structure State where
  /-- `x[0..7]` (R100). -/
  regs : Vector Word NREG
  /-- R110. -/
  pc : Word
  /-- R200. -/
  mem : Memory
  /-- R160. -/
  l1 : Cache
  /-- R160, R151: present iff configured. -/
  l2 : Option Cache
  /-- R170. -/
  steps : Nat
  /-- R140. -/
  status : Status
  /-- The output record stream (R175). -/
  out : List Record
  /-- `SLT_SIGNED` and `ON_RESERVED_FUNC` (R7), fixed for a run (log 3). -/
  params : Params
  deriving DecidableEq, Repr

/-- Why a step answers no next state. -/
inductive Fault where
  /-- Raised by `step` on a Halted machine, which "takes no further step" (R134). A stuck state; safe (log 11). -/
  | machineHalted
  /-- Raised by `step` on a Faulted machine, which takes no further step (R140, R602). A stuck state; safe (log 11). -/
  | machineFaulted (why : RunFault)
  deriving DecidableEq, Repr

/-- Why the model gives an instruction no meaning. -/
inductive Refusal where
  /-- Raised by an arm of `exec` for an instruction not modelled yet; safe. Every instruction of this hardware is
  modelled, so no arm raises it. -/
  | notModelled (mnemonic : String)
  deriving DecidableEq, Repr

/-- The state after reset with the parameters and cache configurations the host gave, no image loaded
(R180, R700, R701). The zero of the pc, of x1 … x7 and of memory are the spec's decisions D11, D12, D13 (log 4, 5). -/
def State.resetOf (p : Params) (c1 : CacheCfg) (c2 : Option CacheCfg) : State where
  regs := Vector.replicate NREG 0#XLEN
  pc := 0#XLEN
  mem := []
  l1 := Cache.empty c1
  l2 := c2.map Cache.empty
  steps := 0
  status := .running
  out := configRecords c1 c2
  params := p

/-- The machine right after reset. The cache configuration is a DESIGN CHOICE (log 2). -/
def State.reset : State := State.resetOf Config.params Config.l1 Config.l2

end Sys2Proof.Machine
end

