-- ==== Sys2Proof/Machine/Ops.lean ====
section
/-! DEFINITION. The shared operations over the state: registers, memory, the record stream, instruction fetch, the
finish of an instruction (halt detection, pc update, clearing of register 0), and raising the one runtime fault.
There is no return from it, no trap entry and no mode (60_exceptions.md R612, R613, R620). -/

namespace Sys2Proof.Machine

/-- The outcome of a step of this machine. -/
abbrev StepResult := Host.Outcome State Fault Refusal

/-! ### Registers -/

/-- `x[r]` (R12): register 0 "is hard-wired to zero", every read of it returns 0 (R101; log 9). -/
def State.readReg (s : State) (r : RegIdx) : Word := if r = 0 then 0#XLEN else s.regs.get r

/-- `x[r] <- v` (R12). A write of register 0 lands in its slot, which the end of the instruction clears (R101, R132). -/
def State.writeReg (s : State) (r : RegIdx) (v : Word) : State :=
  { s with regs := s.regs.set r.val v r.isLt }

/-! ### Memory and records -/

/-- `MemRead(a)` (R12, R201). -/
def State.memRead (s : State) (a : Nat) : Word := s.mem.read a

/-- `MemWrite(a, v)` (R12, R201). -/
def State.memWrite (s : State) (a : Nat) (v : Word) : State := { s with mem := s.mem.write a v }

/-- `emit r` (R12, R250). -/
def State.emit (s : State) (r : Record) : State := { s with out := s.out ++ [r] }

/-- `pc mod 8192` (R111, R131). -/
def State.pcCell (s : State) : Nat := s.pc.toNat % MEMWORDS

/-- The word fetched: `MemRead(pc mod 8192)`; fetch queries no cache (R111). -/
def State.fetch (s : State) : Word := s.memRead s.pcCell

/-! ### The finish of an instruction (R130 … R133) -/

/-- The halt test: `new_pc` equals the 13-bit `pc mod 8192`, zero-extended (R131). -/
def State.haltsAt (s : State) (newPc : Word) : Bool := newPc.toNat == s.pcCell

/-- The self-jump case of R131: the pc is not advanced and register 0 not cleared. -/
def State.halt (s : State) : State := { s with status := .halted }

/-- The other case, R132: "pc is updated and register 0 is forced back to 0". -/
def State.advance (s : State) (newPc : Word) : State :=
  { s with pc := newPc, regs := s.regs.set 0 0#XLEN }

/-- `steps <- steps + 1` (R170). -/
def State.tick (s : State) : State := { s with steps := s.steps + 1 }

/-- What R130 does after an instruction's own effects: count the step, then halt or advance. -/
def State.retire (s : State) (newPc : Word) : State :=
  if s.haltsAt newPc then s.tick.halt else s.tick.advance newPc

/-! ### The runtime fault (R602, R603) -/

/-- `raise IllegalInstruction`: the status records the pc and the word, nothing else changes (R602). -/
def State.raiseIllegalInstruction (s : State) (w : Word) : State :=
  { s with status := .faulted (.illegalInstruction s.pc w) }

/-- Executing a `Reserved` word, by the parameter `ON_RESERVED_FUNC` (R330, R602; log 10). -/
def State.execReserved (s : State) (w : Word) : State :=
  match s.params.onReserved with
  | .fault => s.raiseIllegalInstruction w
  | .nop => s.retire (s.pc + 1)

/-- The numeric code of the fault (R601, the spec's decision D20). -/
def RunFault.code : RunFault → Nat
  | .illegalInstruction _ _ => 1

end Sys2Proof.Machine
end

