-- ==== Sys2Proof/Machine/Flags.lean ====
section
/-! DEFINITION. The block has no flags and no condition codes (10_state.md R176): a comparison's result goes into a
general register. This file holds that comparison, shared by slt and slti. -/

namespace Sys2Proof.Machine

/-- `SLT_SIGNED ? (a <s b) : (a <u b)` (R404, R451, R12). -/
def lessThan (signed : Bool) (a b : Word) : Bool :=
  if signed then a.slt b else a.ult b

/-- `lt ? 0x0001 : 0x0000` (R404, R451). -/
def State.setLess (s : State) (a b : Word) : Word :=
  if lessThan s.params.sltSigned a b then 1#XLEN else 0#XLEN

end Sys2Proof.Machine
end

