-- ==== Sys2Proof/Machine/Operands.lean ====
section
/-! DEFINITION. The operand forms: the two immediates (R310, R311), the branch target (R312) and the one addressing
mode (43_load_store.md R549). -/

namespace Sys2Proof.Machine

/-- `sext_16` of a 7-bit immediate (R12, R310). -/
def sext16 (v : Imm7) : Word := v.signExtend XLEN

/-- `zext_16` of a 13-bit immediate (R12, R311). -/
def zext16 (v : Imm13) : Word := v.setWidth XLEN

/-- `EA = (x[A] + sext_16(imm7)) mod 8192`, the low 13 bits of the 16-bit sum (R549). -/
def State.effAddr (s : State) (base : RegIdx) (imm : Imm7) : Addr :=
  (s.readReg base + sext16 imm).setWidth AW

/-- `pc + 1`, modulo 2^16 (R104, R112; the spec's decision D8). -/
def State.nextPc (s : State) : Word := s.pc + 1#XLEN

/-- `pc + 1 + sext_16(imm7)` (R312, R520). -/
def State.branchTarget (s : State) (offset : Imm7) : Word := s.nextPc + sext16 offset

end Sys2Proof.Machine
end

