-- ==== Sys2Proof/Machine/RegisterRegister.lean ====
section
/-! DEFINITION. The three-register group, opcode 000 (spec/40_register_register.md). Each meaning reads every source
before it writes (10_state.md R135). -/

namespace Sys2Proof.Machine

/-- The shape of every instruction that writes one register and goes on to pc + 1 (R112, R130). -/
def State.writeAndNext (s : State) (dst : RegIdx) (v : Word) : StepResult :=
  .next ((s.writeReg dst v).retire s.nextPc)

/-- R400: `x[D] <- x[A] + x[B]`. -/
def execAdd (dst srcA srcB : RegIdx) (s : State) : StepResult :=
  s.writeAndNext dst (s.readReg srcA + s.readReg srcB)

/-- R401: `x[D] <- x[A] - x[B]`. -/
def execSub (dst srcA srcB : RegIdx) (s : State) : StepResult :=
  s.writeAndNext dst (s.readReg srcA - s.readReg srcB)

/-- R402: `x[D] <- x[A] OR x[B]`. -/
def execOr (dst srcA srcB : RegIdx) (s : State) : StepResult :=
  s.writeAndNext dst (s.readReg srcA ||| s.readReg srcB)

/-- R403: `x[D] <- x[A] AND x[B]`. -/
def execAnd (dst srcA srcB : RegIdx) (s : State) : StepResult :=
  s.writeAndNext dst (s.readReg srcA &&& s.readReg srcB)

/-- R404: `x[D] <- x[A] < x[B] ? 1 : 0`, by `SLT_SIGNED`. -/
def execSlt (dst srcA srcB : RegIdx) (s : State) : StepResult :=
  s.writeAndNext dst (s.setLess (s.readReg srcA) (s.readReg srcB))

/-- R405: `new_pc <- x[A]`, all 16 bits; no register is written. -/
def execJr (target : RegIdx) (s : State) : StepResult :=
  .next (s.retire (s.readReg target))

end Sys2Proof.Machine
end

