-- ==== Sys2Proof/Machine/ImmediateArith.lean ====
section
/-! DEFINITION. addi and slti (spec/41_immediate_arith.md). -/

namespace Sys2Proof.Machine

/-- R450: `x[B] <- x[A] + sext_16(imm7)`. -/
def execAddi (dst src : RegIdx) (imm : Imm7) (s : State) : StepResult :=
  s.writeAndNext dst (s.readReg src + sext16 imm)

/-- R451: `x[B] <- x[A] < sext_16(imm7) ? 1 : 0`, by `SLT_SIGNED`. -/
def execSlti (dst src : RegIdx) (imm : Imm7) (s : State) : StepResult :=
  s.writeAndNext dst (s.setLess (s.readReg src) (sext16 imm))

end Sys2Proof.Machine
end

