-- ==== Sys2Proof/Machine/JumpBranch.lean ====
section
/-! DEFINITION. j, jal and jeq (spec/42_jumps_branches.md): no delay slot, no annulment. -/

namespace Sys2Proof.Machine

/-- The link register (10_state.md R102). -/
def linkReg : RegIdx := 7

/-- R500: `new_pc <- zext_16(imm13)`. -/
def execJ (target : Imm13) (s : State) : StepResult :=
  .next (s.retire (zext16 target))

/-- R510: `x[7] <- pc + 1; new_pc <- zext_16(imm13)`. -/
def execJal (target : Imm13) (s : State) : StepResult :=
  .next ((s.writeReg linkReg s.nextPc).retire (zext16 target))

/-- R520: `new_pc <- pc + 1 + sext_16(imm7)` if `x[A] = x[B]`, else `pc + 1`. -/
def execJeq (srcA srcB : RegIdx) (offset : Imm7) (s : State) : StepResult :=
  .next (s.retire (if s.readReg srcA = s.readReg srcB then s.branchTarget offset else s.nextPc))

end Sys2Proof.Machine
end

