-- ==== Sys2Proof/Machine/CacheHierarchy.lean ====
section
/-! DEFINITION. The cache hierarchy (20_memory.md R230 … R243): lookup, promotion, fill and eviction in one row, one
access to one cache (R236), and the two-level operation (R240). -/

namespace Sys2Proof.Machine

/-- The way that hits: occupied, with the tag looked up (R230). -/
def Row.lookup (R : Row) (tag : Nat) : Option Nat :=
  R.ways.findIdx? (fun w => w.occupied && w.tag == tag)

/-- The unoccupied way with the lowest index (R233). -/
def Row.firstFree (R : Row) : Option Nat :=
  R.ways.findIdx? (fun w => !w.occupied)

/-- The way a MISS fills: the lowest unoccupied one, else the back of `order` (R233). -/
def Row.victim (R : Row) : Nat := R.firstFree.getD (R.order.getLastD 0)

/-- `order <- w :: remove(w, order)` (R232). -/
def Row.promote (R : Row) (w : Nat) : Row := { R with order := w :: R.order.erase w }

/-- `way[v] <- (occupied, tag)`, then promotion of v (R233). The old tag is discarded and nothing else happens (R234). -/
def Row.fill (R : Row) (v tag : Nat) : Row :=
  { ways := R.ways.set v ⟨true, tag⟩, order := v :: R.order.erase v }

/-- What an access does to the row it falls in (R230, R232, R233). -/
def Row.access (R : Row) (tag : Nat) : Row × HitMiss :=
  match R.lookup tag with
  | some w => (R.promote w, .hit)
  | none => (R.fill R.victim tag, .miss)

/-- The result of one access to one cache: the cache after it, the status and the row index. -/
structure AccessResult where
  cache : Cache
  status : HitMiss
  row : Nat
  deriving DecidableEq, Repr

/-- `AccessOne(C, kind, a)` (R236). The kind changes neither the cache nor the status (R235). -/
def Cache.access (C : Cache) (_kind : AccessKind) (a : Addr) : AccessResult :=
  let r := C.cfg.rowOf a
  let after := (C.rowAt r).access (C.cfg.tagOf a)
  { cache := { C with rows := C.rows.set r after.1 }, status := after.2, row := r }

/-- The AccessRecord of one access (R250). -/
def accessRecord (id : CacheId) (req : CacheRequest) (res : AccessResult) : Record :=
  .access ⟨id, res.status, req.pc, req.addr, res.row⟩

/-- The L1 half of `CacheAccess` (R240): L1 is always queried, and emits its record. -/
def State.accessL1 (s : State) (req : CacheRequest) : State :=
  let res := s.l1.access req.kind req.addr
  { s with l1 := res.cache, out := s.out ++ [accessRecord .l1 req res] }

/-- The L2 half: one access and one record if L2 is configured (R240, R241, R242). -/
def State.accessL2 (s : State) (req : CacheRequest) : State :=
  match s.l2 with
  | none => s
  | some c =>
    let res := c.access req.kind req.addr
    { s with l2 := some res.cache, out := s.out ++ [accessRecord .l2 req res] }

/-- `cresp`: the status of the L1 access (R10, R240). -/
def State.cacheStatus (s : State) (req : CacheRequest) : HitMiss := (s.l1.access req.kind req.addr).status

/-- `CacheAccess(kind, a, pc)` (R240): L1, then L2 only on an L1 MISS. Its response is `State.cacheStatus`, which the
executor does not use (R243, R570). -/
def State.cacheAccess (s : State) (req : CacheRequest) : State :=
  match s.cacheStatus req with
  | .hit => s.accessL1 req
  | .miss => (s.accessL1 req).accessL2 req

end Sys2Proof.Machine
end

