-- ==== Sys2Proof/Machine/LoadStore.lean ====
section
/-! DEFINITION. lw and sw (spec/43_load_store.md). The order is the source's: query the hierarchy, then load or write
memory; the status is not used (R550, R560, R570). -/

namespace Sys2Proof.Machine

/-- The request a lw or sw issues: its kind, its effective address and its own pc, unmasked (R570, R250; D17). -/
def State.request (s : State) (kind : AccessKind) (base : RegIdx) (imm : Imm7) : CacheRequest :=
  ⟨kind, s.effAddr base imm, s.pc⟩

/-- R550. The effective address is formed from the old base register (R135). -/
def execLw (dst base : RegIdx) (imm : Imm7) (s : State) : StepResult :=
  let ea := s.effAddr base imm
  let t := s.cacheAccess (s.request .load base imm)
  .next ((t.writeReg dst (t.memRead ea.toNat)).retire s.nextPc)

/-- R560. No register is written. -/
def execSw (value base : RegIdx) (imm : Imm7) (s : State) : StepResult :=
  let ea := s.effAddr base imm
  let t := s.cacheAccess (s.request .store base imm)
  .next ((t.memWrite ea.toNat (s.readReg value)).retire s.nextPc)

end Sys2Proof.Machine
end

