-- ==== Sys2Proof/Machine/Dispatch.lean ====
section
/-! DEFINITION. One arm per constructor of `Instr`, each a direct call of that instruction's meaning. -/

namespace Sys2Proof.Machine

def exec (i : Instr) (s : State) : Host.Outcome State Fault Refusal :=
  match i with
  | .add dst srcA srcB => Sys2Proof.Machine.execAdd dst srcA srcB s
  | .sub dst srcA srcB => Sys2Proof.Machine.execSub dst srcA srcB s
  | .or dst srcA srcB => Sys2Proof.Machine.execOr dst srcA srcB s
  | .and dst srcA srcB => Sys2Proof.Machine.execAnd dst srcA srcB s
  | .slt dst srcA srcB => Sys2Proof.Machine.execSlt dst srcA srcB s
  | .jr target => Sys2Proof.Machine.execJr target s
  | .addi dst src imm => Sys2Proof.Machine.execAddi dst src imm s
  | .j target => Sys2Proof.Machine.execJ target s
  | .jal target => Sys2Proof.Machine.execJal target s
  | .lw dst base imm => Sys2Proof.Machine.execLw dst base imm s
  | .sw value base imm => Sys2Proof.Machine.execSw value base imm s
  | .jeq srcA srcB offset => Sys2Proof.Machine.execJeq srcA srcB offset s
  | .slti dst src imm => Sys2Proof.Machine.execSlti dst src imm s

end Sys2Proof.Machine
end

