-- ==== Sys2Proof/Machine/Step.lean ====
section
/-! DEFINITION. One step of the machine (10_state.md R130), and the placing of a word where it is fetched next. -/

namespace Sys2Proof.Machine

/-- R130: a Running machine fetches, decodes and executes one instruction, or applies R602 to a `Reserved` word. A
Halted or Faulted machine takes no step (R134, R140; log 11). -/
def step (s : State) : Host.Outcome State Fault Refusal :=
  match s.status with
  | .running =>
    match decode s.fetch with
    | .instr i => exec i s
    | .reserved _ => .next (s.execReserved s.fetch)
  | .halted => .fault .machineHalted
  | .faulted why => .fault (.machineFaulted why)

/-- `s` with the word `w` in the cell the next step fetches, and Running, so that the next step runs it. It stands for
the host's load of an image (70_reset_and_hazards.md R712; log 14). -/
def State.withFetchWord (s : State) (nbits w : Nat) : State :=
  { s with mem := s.mem.write s.pcCell (BitVec.ofNat XLEN (w % 2 ^ nbits)), status := .running }

end Sys2Proof.Machine
end

