-- ==== Sys2Proof/Machine/Assembly.lean ====
section
/-! DEFINITION. The assembler of 30_encoding.md R340, R341 after its text is read (general knowledge, no part of the
hardware): operand order, labels, pseudo-instructions and `.fill`. A raw operand that does not fit its field is
refused (log 17). -/

namespace Sys2Proof.Machine

/-- An immediate: a decimal number or a label (R340). -/
inductive AsmValue where
  | num (n : Int)
  | label (name : String)
  deriving DecidableEq, Repr

/-- One line's instruction, pseudo-instruction or directive, operands in R340's order and registers by number. -/
inductive AsmItem where
  | add (d a b : Nat)
  | sub (d a b : Nat)
  | or (d a b : Nat)
  | and (d a b : Nat)
  | slt (d a b : Nat)
  | jr (a : Nat)
  | addi (b a : Nat) (imm : AsmValue)
  | slti (b a : Nat) (imm : AsmValue)
  | lw (b : Nat) (imm : AsmValue) (a : Nat)
  | sw (b : Nat) (imm : AsmValue) (a : Nat)
  | jeq (a b : Nat) (target : AsmValue)
  | j (target : AsmValue)
  | jal (target : AsmValue)
  | movi (b : Nat) (imm : AsmValue)
  | nop
  | halt
  | fill (v : AsmValue)
  deriving DecidableEq, Repr

/-- A line: the labels that name its address, and its item (R340). -/
structure AsmLine where
  labels : List String
  item : AsmItem
  deriving DecidableEq, Repr

/-- The address each label names. -/
abbrev AsmSymbols := List (String × Nat)

/-- The number an immediate stands for. -/
def AsmValue.resolve (syms : AsmSymbols) : AsmValue → Option Int
  | .num n => some n
  | .label name => (syms.lookup name).map Int.ofNat

/-- A register `$0` … `$7`. -/
def asmReg (n : Nat) : Option RegIdx := if h : n < NREG then some ⟨n, h⟩ else none

/-- A number as an `n`-bit two's complement field, if it is in the field's range. -/
def asmSigned (n : Nat) (v : Int) : Option (BitVec n) :=
  if (BitVec.ofInt n v).toInt = v then some (BitVec.ofInt n v) else none

/-- A number as an `n`-bit unsigned field, if it is in the field's range. -/
def asmUnsigned (n : Nat) (v : Int) : Option (BitVec n) :=
  if (BitVec.ofInt n v).toNat = v then some (BitVec.ofInt n v) else none

/-- A 7-bit signed immediate (R310). -/
def asmImm7 (v : Int) : Option Imm7 := asmSigned IMM7BITS v

/-- A 13-bit absolute address (R311). -/
def asmImm13 (v : Int) : Option Imm13 := asmUnsigned IMM13BITS v

/-- A data word (R341). -/
def asmWord (v : Int) : Option Word := asmUnsigned XLEN v

/-- Three registers in the order `$D, $A, $B`. -/
def asmR (make : RegIdx → RegIdx → RegIdx → Instr) (d a b : Nat) : Option Instr :=
  (asmReg d).bind fun d => (asmReg a).bind fun a => (asmReg b).map fun b => make d a b

/-- Two registers and a 7-bit immediate. -/
def asmI (make : RegIdx → RegIdx → Imm7 → Instr) (r1 r2 : Nat) (v : Option Int) : Option Instr :=
  (asmReg r1).bind fun r1 => (asmReg r2).bind fun r2 => (v.bind asmImm7).map fun imm => make r1 r2 imm

/-- The instruction an item at address `pc` stands for; `none` for `.fill` and for an operand out of range
(R340, R341). DESIGN CHOICE (log 24): a decimal operand of jeq is the absolute target, as a label is. -/
def AsmItem.instr (syms : AsmSymbols) (pc : Nat) : AsmItem → Option Instr
  | .add d a b => asmR .add d a b
  | .sub d a b => asmR .sub d a b
  | .or d a b => asmR .or d a b
  | .and d a b => asmR .and d a b
  | .slt d a b => asmR .slt d a b
  | .jr a => (asmReg a).map .jr
  | .addi b a imm => asmI .addi b a (imm.resolve syms)
  | .slti b a imm => asmI .slti b a (imm.resolve syms)
  | .lw b imm a => asmI .lw b a (imm.resolve syms)
  | .sw b imm a => asmI .sw b a (imm.resolve syms)
  | .jeq a b target => asmI .jeq a b ((target.resolve syms).map fun t => t - (pc + 1))
  | .j target => ((target.resolve syms).bind asmImm13).map .j
  | .jal target => ((target.resolve syms).bind asmImm13).map .jal
  | .movi b imm => asmI .addi b 0 (imm.resolve syms)
  | .nop => some (.add 0 0 0)
  | .halt => (asmImm13 pc).map .j
  | .fill _ => none

/-- The word an item at address `pc` becomes. -/
def AsmItem.word (syms : AsmSymbols) (pc : Nat) : AsmItem → Option Word
  | .fill v => (v.resolve syms).bind asmWord
  | item => (item.instr syms pc).map encode

/-- The labels of a program, its first line at address `pc`. -/
def asmSymbolsFrom (pc : Nat) : List AsmLine → AsmSymbols
  | [] => []
  | l :: ls => l.labels.map (fun name => (name, pc)) ++ asmSymbolsFrom (pc + 1) ls

/-- The words of a program's lines from address `pc` on. -/
def asmWordsFrom (syms : AsmSymbols) (pc : Nat) : List AsmLine → Option (List Word)
  | [] => some []
  | l :: ls => (l.item.word syms pc).bind fun w => (asmWordsFrom syms (pc + 1) ls).map (w :: ·)

/-- The image of a program, placed at address 0 (R206). -/
def assemble (lines : List AsmLine) : Option (List Word) :=
  asmWordsFrom (asmSymbolsFrom 0 lines) 0 lines

end Sys2Proof.Machine
end

