-- ==== Sys2Proof/WellFormed.lean ====
section
/-! DEFINITION. Well-formedness of what the host gives the block. An `Instr` needs no check: its fields' types are
its fields' ranges (R302 … R305). A cache configuration does: its three numbers are related. The checks on an
assembler line's raw numbers are in Machine/Assembly.lean. -/

namespace Sys2Proof

/-- The three numbers are positive (R151; the spec's decision D15). -/
def CacheCfg.positive (c : CacheCfg) : Bool :=
  0 < c.size && 0 < c.assoc && 0 < c.blockSize

/-- The capacity invariant as R711 checks it: `size mod (assoc × blockSize) = 0`. -/
def CacheCfg.divisible (c : CacheCfg) : Bool :=
  c.size % (c.assoc * c.blockSize) == 0

/-- A legal cache configuration (R7, R151, R711). -/
def CacheCfg.wellFormed (c : CacheCfg) : Bool :=
  c.positive && c.divisible

end Sys2Proof
end

