-- ==== Sys2Proof/Machine/Boot.lean ====
section
/-! DEFINITION. What the host gives before the first step: the configuration text, the program image, the checks on
them, and the boot order (70_reset_and_hazards.md R700, R710, R711, R712; 60_exceptions.md R601). Text is a list of
characters, so that the kernel can read it. Where several checks fail at once, which one is reported is log 16. -/

namespace Sys2Proof.Machine

/-- Which check of R711 failed (R601 code 2: "records which check failed"). -/
inductive ConfigError where
  | tokenCount
  | notPositiveInteger
  | notDivisible (cache : CacheId)
  deriving DecidableEq, Repr

/-- Which check of R712 failed (R601 code 3). -/
inductive LoadError where
  | malformedLine
  | addressOutOfRange
  | outOfSequence
  deriving DecidableEq, Repr

/-- The fatal conditions of R601 that end an attempt before reset. -/
inductive BootError where
  /-- Code 2: the failed check. -/
  | configFatal (why : ConfigError)
  /-- Code 3: the offending line, its position and the failed check. -/
  | loadFatal (position : Nat) (line : List Char) (why : LoadError)
  deriving DecidableEq, Repr

/-- The numeric codes of R601 (the spec's decision D20). -/
def BootError.code : BootError → Nat
  | .configFatal _ => 2
  | .loadFatal _ _ _ => 3

/-- The end of a boot attempt: no run, or a machine about to take its first step (R714). -/
inductive BootResult where
  | fatal (why : BootError)
  | ready (s : State)
  deriving DecidableEq, Repr

/-! ### Text -/

/-- The number of a digit string after the digits `acc`. -/
def decimalFrom (acc : Nat) : List Char → Option Nat
  | [] => some acc
  | c :: cs => if c.isDigit then decimalFrom (acc * 10 + (c.toNat - 48)) cs else none

/-- A decimal natural: one digit or more and nothing else. -/
def decimal : List Char → Option Nat
  | [] => none
  | c :: cs => decimalFrom 0 (c :: cs)

/-- The text between single commas (D25). -/
def splitCommas : List Char → List (List Char)
  | [] => [[]]
  | c :: cs =>
    match splitCommas cs with
    | [] => [[c]]
    | t :: ts => if c = ',' then [] :: t :: ts else (c :: t) :: ts

/-! ### The configuration (R711) -/

/-- A positive decimal integer (R711; the spec's decision D15). -/
def positiveInteger (cs : List Char) : Option Nat :=
  (decimal cs).bind fun n => if 0 < n then some n else none

/-- Every token as a positive integer. -/
def positiveIntegers : List (List Char) → Option (List Nat)
  | [] => some []
  | t :: ts => (positiveInteger t).bind fun n => (positiveIntegers ts).map (n :: ·)

/-- The triples of a 3- or 6-integer list, each with its divisibility check. -/
def configOf : List Nat → Except ConfigError (CacheCfg × Option CacheCfg)
  | [s1, a1, b1] =>
    if (CacheCfg.mk s1 a1 b1).divisible then .ok (⟨s1, a1, b1⟩, none) else .error (.notDivisible .l1)
  | [s1, a1, b1, s2, a2, b2] =>
    if (CacheCfg.mk s1 a1 b1).divisible then
      if (CacheCfg.mk s2 a2 b2).divisible then .ok (⟨s1, a1, b1⟩, some ⟨s2, a2, b2⟩)
      else .error (.notDivisible .l2)
    else .error (.notDivisible .l1)
  | _ => .error .tokenCount

/-- The configuration check (R711): 3 or 6 tokens, each a positive integer, each triple divisible. -/
def checkConfig (text : List Char) : Except ConfigError (CacheCfg × Option CacheCfg) :=
  let tokens := splitCommas text
  if tokens.length = 3 ∨ tokens.length = 6 then
    match positiveIntegers tokens with
    | none => .error .notPositiveInteger
    | some ns => configOf ns
  else .error .tokenCount

/-! ### The program image (R712) -/

/-- The rest of a text after a fixed beginning. -/
def afterPrefix : List Char → List Char → Option (List Char)
  | [], cs => some cs
  | _ :: _, [] => none
  | p :: ps, c :: cs => if p = c then afterPrefix ps cs else none

/-- `n` binary digits, the first the most significant (the spec's decision D21; log 22), and the rest of the text. -/
def binaryDigits : Nat → Nat → List Char → Option (Nat × List Char)
  | 0, acc, cs => some (acc, cs)
  | _ + 1, _, [] => none
  | n + 1, acc, c :: cs =>
    if c = '0' then binaryDigits n (acc * 2) cs
    else if c = '1' then binaryDigits n (acc * 2 + 1) cs
    else none

/-- One line, `ram[<address>] = 16'b<16 binary digits>;` with optional trailing text (R712). -/
def parseImageLine (line : List Char) : Option (Nat × Word) :=
  (afterPrefix "ram[".toList line).bind fun t1 =>
  (decimal (t1.takeWhile Char.isDigit)).bind fun address =>
  (afterPrefix "] = 16'b".toList (t1.dropWhile Char.isDigit)).bind fun t2 =>
  (binaryDigits XLEN 0 t2).bind fun (value, t3) =>
  (afterPrefix ";".toList t3).map fun _ => (address, BitVec.ofNat XLEN value)

/-- The lines from position `k` on: line `k` must carry address `k` (R712; the spec's decision D14). -/
def loadImageFrom (k : Nat) : List (List Char) → Except BootError (List Word)
  | [] => .ok []
  | line :: rest =>
    match parseImageLine line with
    | none => .error (.loadFatal k line .malformedLine)
    | some (a, w) =>
      if MEMWORDS ≤ a then .error (.loadFatal k line .addressOutOfRange)
      else if a ≠ k then .error (.loadFatal k line .outOfSequence)
      else
        match loadImageFrom (k + 1) rest with
        | .ok ws => .ok (w :: ws)
        | .error e => .error e

/-- The image check and its words (R712). An empty image is accepted. -/
def loadImage (lines : List (List Char)) : Except BootError (List Word) := loadImageFrom 0 lines

/-! ### Boot (R700) -/

/-- A reset machine with an image loaded at address 0 (R180, R700 steps 2 to 6). -/
def State.booted (p : Params) (c1 : CacheCfg) (c2 : Option CacheCfg) (image : List Word) : State :=
  { State.resetOf p c1 c2 with mem := Memory.ofImage image }

/-- From configuration to the first step, the configuration checked before the image (R700, R710). -/
def boot (p : Params) (config : List Char) (image : List (List Char)) : BootResult :=
  match checkConfig config with
  | .error why => .fatal (.configFatal why)
  | .ok (c1, c2) =>
    match loadImage image with
    | .error why => .fatal why
    | .ok ws => .ready (State.booted p c1 c2 ws)

end Sys2Proof.Machine
end

