-- ==== Sys2Proof/Machine/RecordText.lean ====
section
/-! DEFINITION. The host-side text of the records (20_memory.md R253, R254; R5 leaves console formatting to the
surrounding software, and R253 calls the text informative). Text is a list of characters. -/

namespace Sys2Proof.Machine

/-- Field widths of an AccessRecord's text: pc, address, row (R6, R254). -/
def pcTextWidth : Nat := 5
def addrTextWidth : Nat := 5
def rowTextWidth : Nat := 4

/-- A number in decimal. -/
def decimalText (n : Nat) : List Char := Nat.toDigits 10 n

/-- Right-aligned in at least `width` characters, padded with spaces (R254; the spec's decision D18; log 20). -/
def padLeft (width : Nat) (text : List Char) : List Char :=
  List.replicate (width - text.length) ' ' ++ text

def CacheId.text : CacheId → List Char
  | .l1 => "L1".toList
  | .l2 => "L2".toList

def HitMiss.text : HitMiss → List Char
  | .hit => "HIT".toList
  | .miss => "MISS".toList

/-- R253. -/
def ConfigRecord.text (r : ConfigRecord) : List Char :=
  "Cache ".toList ++ r.cache.text ++ " has size ".toList ++ decimalText r.size ++
  ", associativity ".toList ++ decimalText r.assoc ++ ", blocksize ".toList ++ decimalText r.blockSize ++
  ", rows ".toList ++ decimalText r.rows

/-- R254: two spaces before `pc:`, `addr:` and `row:`. -/
def AccessRecord.text (r : AccessRecord) : List Char :=
  r.cache.text ++ " ".toList ++ r.status.text ++
  "  pc:".toList ++ padLeft pcTextWidth (decimalText r.pc.toNat) ++
  "  addr:".toList ++ padLeft addrTextWidth (decimalText r.addr.toNat) ++
  "  row:".toList ++ padLeft rowTextWidth (decimalText r.row)

/-- The text of any record of the stream. -/
def Record.text : Record → List Char
  | .config r => r.text
  | .access r => r.text

/-- The host's text of the record stream, one line each (R633). -/
def State.recordLines (s : State) : List (List Char) := s.out.map Record.text

end Sys2Proof.Machine
end

