-- ==== Sys2Proof/Safety.lean ====
section
/-! DEFINITION. The terms claims are made in: the invariant of every reachable state, what a step leaves unchanged,
and the reference readings of the cache laws. -/

namespace Sys2Proof.Machine

/-! ### The invariant -/

/-- The invariants of a row (10_state.md R160, R162 (a), (b), (d)). -/
structure Row.Inv (assoc : Nat) (R : Row) : Prop where
  /-- R160: exactly `assoc` ways. -/
  ways_length : R.ways.length = assoc
  /-- (a): no duplicates. -/
  order_nodup : R.order.Nodup
  /-- (a): the elements of `order` are exactly the occupied ways. -/
  mem_order : ∀ w, w ∈ R.order ↔ R.occupiedAt w = true
  /-- (b): two occupied ways hold different tags. -/
  tags_distinct : ∀ w v, R.occupiedAt w = true → R.occupiedAt v = true → R.tagAt w = R.tagAt v → w = v
  /-- (d): the occupied ways are ways 0 … k − 1. -/
  occupied_initial : ∀ w v, v < w → R.occupiedAt w = true → R.occupiedAt v = true

/-- A cache of a legal configuration, of its configured shape, each row invariant (R151, R160, R162). -/
structure Cache.Inv (C : Cache) : Prop where
  cfg_wellFormed : C.cfg.wellFormed = true
  rows_length : C.rows.length = C.cfg.rowCount
  rows_inv : ∀ R ∈ C.rows, R.Inv C.cfg.assoc

/-- The invariant of the machine: register 0 holds 0 (R101), memory is in canonical form, the caches are invariant. -/
structure State.Inv (s : State) : Prop where
  reg0 : s.regs.get 0 = 0#16
  mem_wf : s.mem.wf
  l1_inv : s.l1.Inv
  l2_inv : ∀ c, s.l2 = some c → c.Inv

/-! ### What a step leaves unchanged -/

/-- Every cell of memory reads as before. -/
def SameMemory (s t : State) : Prop := ∀ a, t.mem.read a = s.mem.read a

/-- No cache array, configuration register, parameter or record changes. -/
def SameCaches (s t : State) : Prop :=
  t.l1 = s.l1 ∧ t.l2 = s.l2 ∧ t.params = s.params ∧ t.out = s.out

/-- Every register reads as before. -/
def SameRegs (s t : State) : Prop := ∀ r, t.readReg r = s.readReg r

/-- Register `d` reads as `v`, unless it is register 0, which reads as 0; every other register reads as before. -/
def RegResult (s t : State) (d : RegIdx) (v : Word) : Prop :=
  ∀ r, t.readReg r = if r = 0 then 0#16 else if r = d then v else s.readReg r

/-- The machine went on to `pc + 1` (R112): one step counted, the run status as before. -/
def WentOn (s t : State) : Prop :=
  t.pc = s.pc + 1#16 ∧ t.steps = s.steps + 1 ∧ t.status = s.status

/-- The machine transferred to `target` (R130, R131, R132): one step counted; if `target` is `pc mod 8192` it is
Halted with its pc kept, else it goes on at `target`. -/
def Transferred (s t : State) (target : Word) : Prop :=
  t.steps = s.steps + 1 ∧
  (target.toNat = s.pc.toNat % 8192 → t.status = .halted ∧ t.pc = s.pc) ∧
  (target.toNat ≠ s.pc.toNat % 8192 → t.status = s.status ∧ t.pc = target)

/-- The two states differ at most in the caches (arrays, configuration, L2's presence) and the record stream. -/
def SameProgramView (s t : State) : Prop :=
  t.regs = s.regs ∧ t.pc = s.pc ∧ t.mem = s.mem ∧ t.steps = s.steps ∧ t.status = s.status ∧ t.params = s.params

/-! ### Encoding -/

/-- The words that match `pattern` under `mask` decode to `f` of the word (R320). -/
def WordsDecodeTo (pattern mask : Word) (f : Word → Instr) : Prop :=
  ∀ w : Word, w &&& mask = pattern → decode w = .instr (f w)

/-! ### The assembler -/

/-- The operand stands for the number `v`: it is `v`, or a label the table gives the address `v` (R340). -/
def AsmValue.StandsFor (syms : AsmSymbols) (x : AsmValue) (v : Int) : Prop :=
  x = .num v ∨ ∃ name a, x = .label name ∧ syms.lookup name = some a ∧ v = (a : Int)

/-- At address `pc` the item becomes a word, and that word decodes to `i`. -/
def AsmItem.Assembles (syms : AsmSymbols) (pc : Nat) (item : AsmItem) (i : Instr) : Prop :=
  ∃ w, item.word syms pc = some w ∧ decode w = .instr i

/-! ### Reference readings of the cache laws -/

/-- Two rows that agree but for the stored tags of unoccupied ways. -/
structure Row.SameOccupied (R Q : Row) : Prop where
  order : Q.order = R.order
  length : Q.ways.length = R.ways.length
  occupied : ∀ w, Q.occupiedAt w = R.occupiedAt w
  tag : ∀ w, R.occupiedAt w = true → Q.tagAt w = R.tagAt w

/-- The tags a row holds, most recently used first. -/
def Row.tagsByRecency (R : Row) : List Nat := R.order.map R.tagAt

/-- A cache after a sequence of requests, oldest first. -/
def Cache.accessAll (C : Cache) (reqs : List (AccessKind × Addr)) : Cache :=
  reqs.foldl (fun C q => (C.access q.1 q.2).cache) C

/-- The tags that requests to row `r` asked for, newest first. -/
def tagHistory (c : CacheCfg) (r : Nat) (reqs : List (AccessKind × Addr)) : List Nat :=
  ((reqs.filter (fun q => c.rowOf q.2 = r)).map (fun q => c.tagOf q.2)).reverse

/-- The cell a step stores to and the value, if the instruction fetched is a sw (R202, R560). -/
def State.pendingStore (s : State) : Option (Addr × Word) :=
  match decode s.fetch with
  | .instr (.sw value base imm) => some (s.effAddr base imm, s.readReg value)
  | _ => none

/-- The request a step makes to the hierarchy, if the instruction fetched is a lw or sw (R240, R570). -/
def State.pendingRequest (s : State) : Option CacheRequest :=
  match decode s.fetch with
  | .instr (.lw _ base imm) => some ⟨.load, s.effAddr base imm, s.pc⟩
  | .instr (.sw _ base imm) => some ⟨.store, s.effAddr base imm, s.pc⟩
  | _ => none

end Sys2Proof.Machine
end

