-- ==== Sys2Proof/Certificates/Slice0/Obligations.lean ====
section
/-! DEFINITION. The statements about the model, from the rules of spec/. `RegResult`, `WentOn`, `Transferred`,
`SameRegs`, `SameMemory`, `SameCaches`, `SameProgramView`, `WordsDecodeTo` and the invariants are in
Sys2Proof/Safety.lean. Together a per-instruction statement gives the instruction's words, that it completes from
every state, its result and its frame. -/

open Sys2Proof Sys2Proof.Machine

/-! ### Encoding (spec/30_encoding.md; positions, function codes and roles are the spec's decisions D2, D3, D6) -/

/-- R306, R320 (layout by the spec's decisions D2, D3, D6): no operand of any instruction is lost between encoding
and decoding. -/
def Obligations.DecodeOfEncodeIsTheInstruction : Prop :=
  ∀ i : Instr, decode (encode i) = .instr i

/-- R331 (decision D5): every bit of a legal word is kept by decoding and encoding it again, but bits 9..4 of jr,
which are ignored and written as zeros. -/
def Obligations.EncodeOfDecodeKeepsEveryUsedBit : Prop :=
  ∀ (w : Word) (i : Instr), decode w = .instr i →
    encode i = if i.mnemonic = "jr" then w &&& 0xFC0F#16 else w

/-- R320, R333 (function codes by decision D3): an instruction's words match exactly one row of the opcode table,
its own; a `Reserved` word
matches none. -/
def Obligations.DecoderFollowsOpcodeTable : Prop :=
  ∀ w : Word,
    (∀ i, decode w = .instr i → (opcodeTable.filter (·.matchesWord w)).map (·.mnemonic) = [i.mnemonic]) ∧
    (∀ f, decode w = .reserved f → opcodeTable.filter (·.matchesWord w) = [])

/-- R330 (values of decision D3): a word is `Reserved` exactly when its opcode is 000 and its function code is none
of 0000, 0001, 0010, 0011, 0100, 1000. -/
def Obligations.ReservedExactlyUnassignedFunctionCodes : Prop :=
  ∀ (w : Word) (f : FuncCode), decode w = .reserved f ↔
    w.extractLsb' 13 3 = 0b000#3 ∧ w.extractLsb' 0 4 = f ∧
      f ∉ [0b0000#4, 0b0001#4, 0b0010#4, 0b0011#4, 0b0100#4, 0b1000#4]

/-- R306 (decision D2): the fields of each of the three formats are the whole word, each at its place: bit 13, 10, 7,
4 or 0 upward. -/
def Obligations.FormatsAreTheWholeWord : Prop :=
  ∀ w : Word,
    w.toNat = (opcodeOf w).toNat * 2 ^ 13 + (fieldA w).val * 2 ^ 10 + (fieldB w).val * 2 ^ 7 +
      (fieldD w).val * 2 ^ 4 + (funcOf w).toNat ∧
    w.toNat = (opcodeOf w).toNat * 2 ^ 13 + (fieldA w).val * 2 ^ 10 + (fieldB w).val * 2 ^ 7 + (imm7Of w).toNat ∧
    w.toNat = (opcodeOf w).toNat * 2 ^ 13 + (imm13Of w).toNat

/-- 95_test_vectors.md DEC-1, 2, 5, 6, 8, 10 to 15, 17 (layout by decisions D2, D3, D5, D6): words written out from
the encodings decode to the instructions
they stand for. -/
def Obligations.WrittenWordsDecode : Prop :=
  decode 0x0000#16 = .instr (.add 0 0 0) ∧ decode 0x0530#16 = .instr (.add 3 1 2) ∧
  decode 0x1C08#16 = .instr (.jr 7) ∧ decode 0x1FF8#16 = .instr (.jr 7) ∧
  decode 0x000F#16 = .reserved 0b1111#4 ∧ decode 0x257F#16 = .instr (.addi 2 1 0x7F#7) ∧
  decode 0x4064#16 = .instr (.j 100#13) ∧ decode 0x6064#16 = .instr (.jal 100#13) ∧
  decode 0x8505#16 = .instr (.lw 2 1 5#7) ∧ decode 0xA505#16 = .instr (.sw 2 1 5#7) ∧
  decode 0xC503#16 = .instr (.jeq 1 2 3#7) ∧ decode 0xFFFF#16 = .instr (.slti 7 7 0x7F#7)

/-- R310, R311: bit 6 of a 7-bit immediate is copied into bits 15 … 7, so that the value, −64 … 63, is kept; a
13-bit immediate is padded with zeros. -/
def Obligations.ImmediatesAreExtended : Prop :=
  (∀ v : Imm7, (sext16 v).toInt = v.toInt ∧ -64 ≤ v.toInt ∧ v.toInt ≤ 63 ∧
    ∀ k, k < 16 → (sext16 v).getLsbD k = if k < 7 then v.getLsbD k else v.getLsbD 6) ∧
  (∀ v : Imm13, (zext16 v).toNat = v.toNat ∧ v.toNat ≤ 8191)

/-! ### The thirteen instructions: words, completion, result, frame -/

/-- R400: its words by the spec's decisions D2, D3, D6, the sum modulo 2^16 by D9. -/
def Obligations.AddWritesTheSum : Prop :=
  WordsDecodeTo 0x0000#16 0xE00F#16 (fun w => .add (fieldD w) (fieldA w) (fieldB w)) ∧
  ∀ (d a b : RegIdx) (s : State), ∃ t, exec (.add d a b) s = .next t ∧
    RegResult s t d (s.readReg a + s.readReg b) ∧ WentOn s t ∧ SameMemory s t ∧ SameCaches s t

/-- R401: its words by the spec's decisions D2, D3, D6, the operand order by D6, the difference modulo 2^16 by D9. -/
def Obligations.SubWritesAMinusB : Prop :=
  WordsDecodeTo 0x0001#16 0xE00F#16 (fun w => .sub (fieldD w) (fieldA w) (fieldB w)) ∧
  ∀ (d a b : RegIdx) (s : State), ∃ t, exec (.sub d a b) s = .next t ∧
    RegResult s t d (s.readReg a - s.readReg b) ∧ WentOn s t ∧ SameMemory s t ∧ SameCaches s t

/-- R402: its words by the spec's decisions D2, D3, D6. -/
def Obligations.OrWritesTheBitwiseOr : Prop :=
  WordsDecodeTo 0x0002#16 0xE00F#16 (fun w => .or (fieldD w) (fieldA w) (fieldB w)) ∧
  ∀ (d a b : RegIdx) (s : State), ∃ t, exec (.or d a b) s = .next t ∧
    RegResult s t d (s.readReg a ||| s.readReg b) ∧ WentOn s t ∧ SameMemory s t ∧ SameCaches s t

/-- R403: its words by the spec's decisions D2, D3, D6. -/
def Obligations.AndWritesTheBitwiseAnd : Prop :=
  WordsDecodeTo 0x0003#16 0xE00F#16 (fun w => .and (fieldD w) (fieldA w) (fieldB w)) ∧
  ∀ (d a b : RegIdx) (s : State), ∃ t, exec (.and d a b) s = .next t ∧
    RegResult s t d (s.readReg a &&& s.readReg b) ∧ WentOn s t ∧ SameMemory s t ∧ SameCaches s t

/-- R404, for both values of `SLT_SIGNED` (decision D7): its words by the spec's decisions D2, D3, D6. -/
def Obligations.SltWritesTheComparison : Prop :=
  WordsDecodeTo 0x0004#16 0xE00F#16 (fun w => .slt (fieldD w) (fieldA w) (fieldB w)) ∧
  ∀ (d a b : RegIdx) (s : State), ∃ t, exec (.slt d a b) s = .next t ∧
    RegResult s t d
      (if (if s.params.sltSigned = true then (s.readReg a).toInt < (s.readReg b).toInt
           else (s.readReg a).toNat < (s.readReg b).toNat) then 1#16 else 0#16) ∧
    WentOn s t ∧ SameMemory s t ∧ SameCaches s t

/-- R405 (words by the spec's decisions D2, D3, with bits 9..4 ignored by D5): the target is all 16 bits of x[A],
and no register is written. -/
def Obligations.JrJumpsToTheRegister : Prop :=
  WordsDecodeTo 0x0008#16 0xE00F#16 (fun w => .jr (fieldA w)) ∧
  ∀ (a : RegIdx) (s : State), ∃ t, exec (.jr a) s = .next t ∧
    Transferred s t (s.readReg a) ∧ SameRegs s t ∧ SameMemory s t ∧ SameCaches s t

/-- R450: its words by the spec's decisions D2, D3, D6, the sum modulo 2^16 by D9. -/
def Obligations.AddiWritesTheSum : Prop :=
  WordsDecodeTo 0x2000#16 0xE000#16 (fun w => .addi (fieldB w) (fieldA w) (imm7Of w)) ∧
  ∀ (b a : RegIdx) (imm : Imm7) (s : State), ∃ t, exec (.addi b a imm) s = .next t ∧
    RegResult s t b (s.readReg a + imm.signExtend 16) ∧ WentOn s t ∧ SameMemory s t ∧ SameCaches s t

/-- R451, for both values of `SLT_SIGNED` (decision D7): its words by the spec's decisions D2, D3, D6. -/
def Obligations.SltiWritesTheComparison : Prop :=
  WordsDecodeTo 0xE000#16 0xE000#16 (fun w => .slti (fieldB w) (fieldA w) (imm7Of w)) ∧
  ∀ (b a : RegIdx) (imm : Imm7) (s : State), ∃ t, exec (.slti b a imm) s = .next t ∧
    RegResult s t b
      (if (if s.params.sltSigned = true then (s.readReg a).toInt < imm.toInt
           else (s.readReg a).toNat < (imm.signExtend 16).toNat) then 1#16 else 0#16) ∧
    WentOn s t ∧ SameMemory s t ∧ SameCaches s t

/-- R500; the pc has 16 bits by the spec's decision D8, the immediate's place is derived in the spec (R305). -/
def Obligations.JJumpsToTheAbsoluteTarget : Prop :=
  WordsDecodeTo 0x4000#16 0xE000#16 (fun w => .j (imm13Of w)) ∧
  ∀ (imm : Imm13) (s : State), ∃ t, exec (.j imm) s = .next t ∧
    Transferred s t (imm.setWidth 16) ∧ SameRegs s t ∧ SameMemory s t ∧ SameCaches s t

/-- R510 (16-bit link value by decision D8, the immediate's place derived in R305): the link is written even when
the jal halts. -/
def Obligations.JalLinksAndJumps : Prop :=
  WordsDecodeTo 0x6000#16 0xE000#16 (fun w => .jal (imm13Of w)) ∧
  ∀ (imm : Imm13) (s : State), ∃ t, exec (.jal imm) s = .next t ∧
    RegResult s t 7 (s.pc + 1#16) ∧ Transferred s t (imm.setWidth 16) ∧ SameMemory s t ∧ SameCaches s t

/-- R520: its words by the spec's decisions D2, D3, D6, the 16-bit target arithmetic by D8. -/
def Obligations.JeqBranchesIfEqual : Prop :=
  WordsDecodeTo 0xC000#16 0xE000#16 (fun w => .jeq (fieldA w) (fieldB w) (imm7Of w)) ∧
  ∀ (a b : RegIdx) (imm : Imm7) (s : State), ∃ t, exec (.jeq a b imm) s = .next t ∧
    (s.readReg a = s.readReg b → Transferred s t (s.pc + 1#16 + imm.signExtend 16)) ∧
    (s.readReg a ≠ s.readReg b → WentOn s t) ∧ SameRegs s t ∧ SameMemory s t ∧ SameCaches s t

/-- R549 (the equality with the mathematical sum is derived in the spec from R104): the effective address is the
mathematical sum of x[A] and the signed immediate, modulo 8192. -/
def Obligations.EffectiveAddressIsTheSumModulo8192 : Prop :=
  ∀ (s : State) (a : RegIdx) (imm : Imm7),
    ((s.effAddr a imm).toNat : Int) = ((s.readReg a).toNat + imm.toInt) % 8192

/-- R550 (words by the spec's decisions D2, D3, D6): one LOAD request with the effective address and
the pc of the lw, whose effect is `cacheAccess`; the loaded word goes to x[B] whatever its status. -/
def Obligations.LwLoadsTheCell : Prop :=
  WordsDecodeTo 0x8000#16 0xE000#16 (fun w => .lw (fieldB w) (fieldA w) (imm7Of w)) ∧
  ∀ (b a : RegIdx) (imm : Imm7) (s : State),
    let ea : Addr := (s.readReg a + imm.signExtend 16).setWidth 13
    let u := s.cacheAccess ⟨.load, ea, s.pc⟩
    ∃ t, exec (.lw b a imm) s = .next t ∧
      RegResult s t b (s.mem.read ea.toNat) ∧ WentOn s t ∧ SameMemory s t ∧
      t.l1 = u.l1 ∧ t.l2 = u.l2 ∧ t.out = u.out ∧ t.params = s.params

/-- R560 (words by the spec's decisions D2, D3, D6): one STORE request; the cell at the effective address becomes
x[B] whatever the status, every other cell and
every register reads as before. -/
def Obligations.SwStoresToTheCell : Prop :=
  WordsDecodeTo 0xA000#16 0xE000#16 (fun w => .sw (fieldB w) (fieldA w) (imm7Of w)) ∧
  ∀ (b a : RegIdx) (imm : Imm7) (s : State),
    let ea : Addr := (s.readReg a + imm.signExtend 16).setWidth 13
    let u := s.cacheAccess ⟨.store, ea, s.pc⟩
    ∃ t, exec (.sw b a imm) s = .next t ∧
      (∀ x, t.mem.read x = if x % 8192 = ea.toNat then s.readReg b else s.mem.read x) ∧
      WentOn s t ∧ SameRegs s t ∧
      t.l1 = u.l1 ∧ t.l2 = u.l2 ∧ t.out = u.out ∧ t.params = s.params

/-! ### The instruction cycle, the run status and the fault -/

/-- R130, R111: a Running machine executes the instruction in the cell at the low 13 bits of its pc, and fetching it
adds nothing to what the instruction does. -/
def Obligations.StepRunsTheDecodedInstruction : Prop :=
  ∀ (s : State) (i : Instr), s.status = .running →
    decode (s.mem.read (s.pc.setWidth 13).toNat) = .instr i → step s = exec i s

/-- R130, R131, R132 (the 16-bit pc and its comparison with the low 13 bits by the spec's decision D8, log 8; the
counted step by R170, decision D16, log 15): the finish of an instruction with next pc `newPc`. On a self-jump the machine halts with the pc not
advanced and register 0 not cleared; otherwise the pc is updated and register 0 cleared. -/
def Obligations.FinishHaltsOnSelfJumpElseAdvances : Prop :=
  ∀ (s : State) (newPc : Word),
    (newPc = (s.pc.setWidth 13).setWidth 16 →
      s.retire newPc = { s with steps := s.steps + 1, status := .halted }) ∧
    (newPc ≠ (s.pc.setWidth 13).setWidth 16 →
      s.retire newPc = { s with steps := s.steps + 1, pc := newPc, regs := s.regs.set 0 0#16 })

/-- R133 (derived in the spec from R112, R131): of a Running machine's instructions only j, jal, jr and a taken jeq
can halt it, and the halting step keeps
the pc, makes no cache access and emits no record. -/
def Obligations.OnlySelfTransfersHalt : Prop :=
  ∀ (i : Instr) (s t : State), s.status = .running → exec i s = .next t → t.status = .halted →
    ((∃ m, i = .j m) ∨ (∃ m, i = .jal m) ∨ (∃ a, i = .jr a) ∨
      ∃ a b m, i = .jeq a b m ∧ s.readReg a = s.readReg b) ∧
    t.pc = s.pc ∧ SameCaches s t

/-- R134, R140, R602, decision D26: a step is possible exactly while Running. That a step of a stopped machine is
answered by a fault outcome with these names is the model's choice (log 11). -/
def Obligations.StepsExactlyWhileRunning : Prop :=
  ∀ s : State,
    ((∃ t, step s = .next t) ↔ s.status = .running) ∧
    (s.status = .halted → step s = .fault .machineHalted) ∧
    (∀ why, s.status = .faulted why → step s = .fault (.machineFaulted why))

/-- R602 (decision D4): a `Reserved` word sets the status to Faulted with the pc and the word and changes nothing
else under `fault`, and under `nop` goes on to pc + 1 with no other effect. -/
def Obligations.ReservedWordFaultsOrGoesOn : Prop :=
  ∀ (s : State) (f : FuncCode), s.status = .running →
    decode (s.mem.read (s.pc.setWidth 13).toNat) = .reserved f →
    (s.params.onReserved = .fault →
      step s = .next { s with
        status := .faulted (.illegalInstruction s.pc (s.mem.read (s.pc.setWidth 13).toNat)) }) ∧
    (s.params.onReserved = .nop →
      ∃ t, step s = .next t ∧ WentOn s t ∧ SameRegs s t ∧ SameMemory s t ∧ SameCaches s t)

/-- R603, R611 (derived in the spec from R602, decision D4): a step that ends Faulted fetched a `Reserved` word
under `fault`, and its state is the state before
it with the status alone changed. -/
def Obligations.FaultedStateIsTheStateBefore : Prop :=
  ∀ (s t : State) (why : RunFault), step s = .next t → t.status = .faulted why →
    (∃ f, decode s.fetch = .reserved f) ∧ s.params.onReserved = .fault ∧
    why = .illegalInstruction s.pc s.fetch ∧ t = { s with status := t.status }

/-- R170 (decision D16), R602 (decision D4): each executed instruction counts one step, the halting one too; the
fault counts none. -/
def Obligations.EveryExecutedInstructionCountsOneStep : Prop :=
  ∀ s t : State, step s = .next t →
    ((∃ why, t.status = .faulted why) → t.steps = s.steps) ∧
    ((∀ why, t.status ≠ .faulted why) → t.steps = s.steps + 1)

/-- R150, R7, R214: no step changes a configuration register, the presence of L2 or a parameter. -/
def Obligations.NoStepChangesTheConfiguration : Prop :=
  ∀ s t : State, step s = .next t →
    t.l1.cfg = s.l1.cfg ∧ t.l2.map (·.cfg) = s.l2.map (·.cfg) ∧ t.params = s.params

/-! ### Memory -/

/-- R202, R560: a step changes memory only if it executes a sw, and then only the cell at its effective address. -/
def Obligations.OnlyStoresChangeMemory : Prop :=
  ∀ s t : State, step s = .next t → ∀ x : Nat,
    t.mem.read x = match s.pendingStore with
      | some (ea, v) => if x % 8192 = ea.toNat then v else s.mem.read x
      | none => s.mem.read x

/-- R210: after a store of `v` to cell `a` and any number of steps that do not store to `a`, a lw of `a` into a
register other than 0 delivers `v`. -/
def Obligations.LoadReturnsTheMostRecentStore : Prop :=
  ∀ (n : Nat) (s s' t : State) (a : Addr) (v : Word),
    s.pendingStore = some (a, v) → step s = .next s' → Sys2Proof.core.run n s' = .next t →
    (∀ k u, k < n → Sys2Proof.core.run k s' = .next u → ∀ q, u.pendingStore = some q → q.1 ≠ a) →
    ∀ (dst base : RegIdx) (imm : Imm7), t.effAddr base imm = a → dst ≠ 0 →
      ∃ u, exec (.lw dst base imm) t = .next u ∧ u.readReg dst = v

/-- R213 (derived in the spec from R210, R231): a sw that writes the cell `(pc + 1) mod 8192` changes the
instruction fetched next. -/
def Obligations.StoreIsSeenByTheNextFetch : Prop :=
  ∀ (s : State) (value base : RegIdx) (imm : Imm7), s.status = .running →
    decode s.fetch = .instr (.sw value base imm) → s.effAddr base imm = (s.pc + 1#16).setWidth 13 →
    ∃ t, step s = .next t ∧ t.pc = s.pc + 1#16 ∧ t.status = .running ∧ t.fetch = s.readReg value

/-- The model's canonical form (log 1, 5): two memories in it that read alike are equal data. -/
def Obligations.CanonicalMemoriesThatReadAlikeAreEqual : Prop :=
  ∀ m n : Memory, m.wf → n.wf → (∀ a, m.read a = n.read a) → m = n

/-! ### The cache hierarchy -/

/-- R151, R220, R221 (the ranges are derived in the spec; positivity is decision D15): the decomposition of an
address and its ranges, for every legal configuration. -/
def Obligations.AddressDecomposition : Prop :=
  ∀ c : CacheCfg, c.wellFormed = true →
    c.rowCount * c.assoc * c.blockSize = c.size ∧ 1 ≤ c.rowCount ∧
    ∀ a : Addr,
      c.rowOf a = a.toNat / c.blockSize % c.rowCount ∧ c.tagOf a = a.toNat / c.blockSize / c.rowCount ∧
      c.rowOf a < c.rowCount ∧ c.tagOf a ≤ 8191 / (c.blockSize * c.rowCount) ∧
      a.toNat / c.blockSize = c.tagOf a * c.rowCount + c.rowOf a ∧
      ∀ b : Addr, (c.rowOf a = c.rowOf b ∧ c.tagOf a = c.tagOf b) ↔
        a.toNat / c.blockSize = b.toNat / c.blockSize

/-- R230: an access is a HIT exactly when an occupied way of the row holds the tag, else a MISS; at most one way
matches in a row that meets the invariant. -/
def Obligations.HitExactlyWhenAnOccupiedWayHoldsTheTag : Prop :=
  ∀ (C : Cache) (k : AccessKind) (a : Addr),
    let R := C.rowAt (C.cfg.rowOf a)
    ((C.access k a).status = .hit ↔ ∃ w, R.occupiedAt w = true ∧ R.tagAt w = C.cfg.tagOf a) ∧
    ((C.access k a).status = .miss ↔ ¬ ∃ w, R.occupiedAt w = true ∧ R.tagAt w = C.cfg.tagOf a) ∧
    (C.Inv → ∀ w v, R.occupiedAt w = true → R.tagAt w = C.cfg.tagOf a →
      R.occupiedAt v = true → R.tagAt v = C.cfg.tagOf a → w = v)

/-- R232: a HIT at way w moves w to the front of its row's order; no way and no other row changes. -/
def Obligations.HitPromotesTheWay : Prop :=
  ∀ (C : Cache) (k : AccessKind) (a : Addr) (w : Nat), C.Inv →
    (C.rowAt (C.cfg.rowOf a)).occupiedAt w = true →
    (C.rowAt (C.cfg.rowOf a)).tagAt w = C.cfg.tagOf a →
    (C.access k a).status = .hit ∧ (C.access k a).cache.cfg = C.cfg ∧
    ∀ r, (C.access k a).cache.rowAt r =
      if r = C.cfg.rowOf a then
        { ways := (C.rowAt r).ways, order := w :: (C.rowAt r).order.filter (· ≠ w) }
      else C.rowAt r

/-- R233, R234: a MISS fills the lowest unoccupied way, or in a full row the back of the order, installs the tag
there, moves it to the front, and changes no other way and no other row. -/
def Obligations.MissFillsTheLowestFreeOrTheLeastRecentWay : Prop :=
  ∀ (C : Cache) (k : AccessKind) (a : Addr), C.Inv →
    let R := C.rowAt (C.cfg.rowOf a)
    (∀ w, R.occupiedAt w = true → R.tagAt w ≠ C.cfg.tagOf a) →
    ∃ v, v < C.cfg.assoc ∧
      ((R.occupiedAt v = false ∧ ∀ w < v, R.occupiedAt w = true) ∨
       ((∀ w < C.cfg.assoc, R.occupiedAt w = true) ∧ R.order.getLast? = some v)) ∧
      (C.access k a).status = .miss ∧ (C.access k a).cache.cfg = C.cfg ∧
      ∀ r, (C.access k a).cache.rowAt r =
        if r = C.cfg.rowOf a then
          { ways := R.ways.set v ⟨true, C.cfg.tagOf a⟩, order := v :: R.order.filter (· ≠ v) }
        else C.rowAt r

/-- R246 (derived in the spec from R233): a MISS in a full row evicts one resident tag and keeps the others; in a
row that is not full it keeps every
resident tag; in either case the tag asked for is resident afterwards. -/
def Obligations.MissEvictsExactlyWhenTheRowIsFull : Prop :=
  ∀ (C : Cache) (k : AccessKind) (a : Addr), C.Inv → (C.access k a).status = .miss →
    let R := C.rowAt (C.cfg.rowOf a)
    let Q := (C.access k a).cache.rowAt (C.cfg.rowOf a)
    C.cfg.tagOf a ∈ Q.tagsByRecency ∧
    ((∃ w < C.cfg.assoc, R.occupiedAt w = false) → ∀ t ∈ R.tagsByRecency, t ∈ Q.tagsByRecency) ∧
    ((∀ w < C.cfg.assoc, R.occupiedAt w = true) →
      ∃ e ∈ R.tagsByRecency, e ∉ Q.tagsByRecency ∧ ∀ t ∈ R.tagsByRecency, t ≠ e → t ∈ Q.tagsByRecency)

/-- R235: a STORE access changes the caches and answers exactly as a LOAD access to the same address does. -/
def Obligations.StoreAccessIsLikeLoadAccess : Prop :=
  (∀ (C : Cache) (a : Addr), C.access .store a = C.access .load a) ∧
  ∀ (s : State) (a : Addr) (pc : Word), s.cacheAccess ⟨.store, a, pc⟩ = s.cacheAccess ⟨.load, a, pc⟩

/-- R241: L1 is always accessed once with one record; an L1 HIT makes no L2 access and no L2 record; an L1 MISS makes
exactly one L2 access and record with L2 configured, and nothing further without. -/
def Obligations.L2IsQueriedExactlyOnL1Miss : Prop :=
  ∀ (s : State) (kind : AccessKind) (a : Addr) (pc : Word),
    let t := s.cacheAccess ⟨kind, a, pc⟩
    let r1 := s.l1.access kind a
    let rec1 := Record.access ⟨.l1, r1.status, pc, a, s.l1.cfg.rowOf a⟩
    t.l1 = r1.cache ∧
    (r1.status = .hit → t.l2 = s.l2 ∧ t.out = s.out ++ [rec1]) ∧
    (r1.status = .miss → s.l2 = none → t.l2 = none ∧ t.out = s.out ++ [rec1]) ∧
    (∀ c, r1.status = .miss → s.l2 = some c →
      t.l2 = some (c.access kind a).cache ∧
      t.out = s.out ++ [rec1, Record.access ⟨.l2, (c.access kind a).status, pc, a, c.cfg.rowOf a⟩])

/-- R240, R570: a step makes the one request of the lw or sw it executes, and no other step touches the caches or
emits a record. -/
def Obligations.OneRequestPerLoadOrStoreAndNoOther : Prop :=
  ∀ s t : State, step s = .next t →
    match s.pendingRequest with
    | some q => t.l1 = (s.cacheAccess q).l1 ∧ t.l2 = (s.cacheAccess q).l2 ∧ t.out = (s.cacheAccess q).out
    | none => t.l1 = s.l1 ∧ t.l2 = s.l2 ∧ t.out = s.out

/-- R162 (c) (derived in the spec from R230, R232, R233): nothing invalidates a way of either cache. -/
def Obligations.OccupiedWaysStayOccupied : Prop :=
  ∀ s t : State, step s = .next t → ∀ r w,
    ((s.l1.rowAt r).occupiedAt w = true → (t.l1.rowAt r).occupiedAt w = true) ∧
    (∀ c, s.l2 = some c → (c.rowAt r).occupiedAt w = true →
      ∃ c', t.l2 = some c' ∧ (c'.rowAt r).occupiedAt w = true)

/-- Decision D23, U11, R180: the stored tag of an unoccupied way cannot be observed: rows that differ only there
answer every access alike and still differ only there. -/
def Obligations.TagOfUnoccupiedWayIsUnobservable : Prop :=
  ∀ (R Q : Row) (tag : Nat), R.SameOccupied Q →
    (Q.access tag).2 = (R.access tag).2 ∧ (R.access tag).1.SameOccupied (Q.access tag).1

/-- R245 (derived in the spec from R232, R233): after an access, a second access to the same block HITs if no access
in between fell in that row. -/
def Obligations.RepeatedAccessHits : Prop :=
  ∀ (C : Cache) (k1 k2 : AccessKind) (a b : Addr) (between : List (AccessKind × Addr)), C.Inv →
    a.toNat / C.cfg.blockSize = b.toNat / C.cfg.blockSize →
    (∀ q ∈ between, C.cfg.rowOf q.2 ≠ C.cfg.rowOf a) →
    (((C.access k1 a).cache.accessAll between).access k2 b).status = .hit

/-- R244 (derived in the spec from R232, R233): true LRU. After any sequence of requests to an empty cache, each row
holds exactly the tags of
the `assoc` most recently requested different blocks of that row, most recent first. -/
def Obligations.RowsHoldTheMostRecentlyUsedTags : Prop :=
  ∀ (c : CacheCfg) (reqs : List (AccessKind × Addr)) (r : Nat), c.wellFormed = true → r < c.rowCount →
    (((Cache.empty c).accessAll reqs).rowAt r).tagsByRecency = (tagHistory c r reqs).eraseDups.take c.assoc

/-- R164, R231, R243 (with the pc of D8 and the reserved words of D4): the caches never influence a program. Two
machines that differ only in their caches (arrays,
configuration, presence of L2) and records run alike for any number of steps. -/
def Obligations.CachesNeverInfluenceTheProgram : Prop :=
  ∀ (n : Nat) (s1 s2 t1 : State), SameProgramView s1 s2 → Sys2Proof.core.run n s1 = .next t1 →
    ∃ t2, Sys2Proof.core.run n s2 = .next t2 ∧ SameProgramView t1 t2

/-! ### Records' text -/

/-- R253, R254 (decision D18) and 95_test_vectors.md SRC-9: the worked examples of the host's text. -/
def Obligations.RecordTextOfTheWorkedExamples : Prop :=
  (configRecord .l1 ⟨4, 1, 2⟩).text = "Cache L1 has size 4, associativity 1, blocksize 2, rows 2".toList ∧
  (Record.access ⟨.l1, .miss, 3#16, 128#13, 0⟩).text = "L1 MISS  pc:    3  addr:  128  row:   0".toList ∧
  (Record.access ⟨.l2, .miss, 9#16, 24#13, 0⟩).text = "L2 MISS  pc:    9  addr:   24  row:   0".toList

/-! ### Reset, boot and the invariant -/

/-- R180, R701 (zero of pc, registers and memory: decisions D11, D12, D13): the state after reset, for every
parameter and configuration. -/
def Obligations.ResetValues : Prop :=
  ∀ (p : Params) (c1 : CacheCfg) (c2 : Option CacheCfg),
    let s := State.resetOf p c1 c2
    s.pc = 0#16 ∧ (∀ r, s.readReg r = 0#16) ∧ (∀ a, s.mem.read a = 0#16) ∧ s.steps = 0 ∧ s.status = .running ∧
    s.params = p ∧ s.l1.cfg = c1 ∧ s.l2.map (·.cfg) = c2 ∧
    (∀ r w, (s.l1.rowAt r).occupiedAt w = false ∧ (s.l1.rowAt r).order = []) ∧
    (∀ c, s.l2 = some c → ∀ r w, (c.rowAt r).occupiedAt w = false ∧ (c.rowAt r).order = []) ∧
    s.out = Record.config ⟨.l1, c1.size, c1.assoc, c1.blockSize, c1.rowCount⟩ ::
      (match c2 with
       | some c => [Record.config ⟨.l2, c.size, c.assoc, c.blockSize, c.rowCount⟩]
       | none => [])

/-- The state after reset meets the invariant, for every legal configuration; so does `State.reset`, whose
configuration is the model's choice (log 2). -/
def Obligations.ResetMeetsTheInvariant : Prop :=
  (∀ (p : Params) (c1 : CacheCfg) (c2 : Option CacheCfg), c1.wellFormed = true →
    (∀ c, c2 = some c → c.wellFormed = true) → (State.resetOf p c1 c2).Inv) ∧ State.reset.Inv

/-- R101, R160, R162 (a), (b), (d) (derived in the spec) and the model's canonical form of memory (log 1, 5): every
step keeps the invariant, from every
state that meets it. -/
def Obligations.EveryStepKeepsTheInvariant : Prop :=
  ∀ s t : State, s.Inv → step s = .next t → t.Inv

/-- R711 (decisions D15, D25): the configuration text is accepted exactly when it is 3 or 6 positive decimal integers
and each triple meets the capacity invariant. That any other token count is reported as the token count error,
whatever else is wrong with the tokens, is the model's choice (log 16), and so is what a number looks like. -/
def Obligations.ConfigurationCheck : Prop :=
  ∀ text : List Char,
    (∀ c1, checkConfig text = .ok (c1, none) ↔
      (splitCommas text).map positiveInteger = [some c1.size, some c1.assoc, some c1.blockSize] ∧
      c1.size % (c1.assoc * c1.blockSize) = 0) ∧
    (∀ c1 c2, checkConfig text = .ok (c1, some c2) ↔
      (splitCommas text).map positiveInteger =
        [some c1.size, some c1.assoc, some c1.blockSize, some c2.size, some c2.assoc, some c2.blockSize] ∧
      c1.size % (c1.assoc * c1.blockSize) = 0 ∧ c2.size % (c2.assoc * c2.blockSize) = 0) ∧
    ((splitCommas text).length ≠ 3 → (splitCommas text).length ≠ 6 → checkConfig text = .error .tokenCount)

/-- R712 (decision D14): an image is accepted exactly when it has at most 8192 lines, each well formed and line k
carrying address k. -/
def Obligations.ImageCheck : Prop :=
  ∀ (lines : List (List Char)) (ws : List Word),
    loadImage lines = .ok ws ↔
      lines.length ≤ 8192 ∧ lines.map parseImageLine = ws.zipIdx.map (fun p => some (p.2, p.1))

/-- R700, R710, R712 (decisions D13, D19, D22): the configuration is checked before the image; when both pass, the
machine is Running at address 0 with word k of the image in cell k and 0 beyond it, its records are the ConfigRecords,
and it meets the invariant. -/
def Obligations.BootOrderAndLoadedMachine : Prop :=
  ∀ (p : Params) (config : List Char) (image : List (List Char)),
    (∀ why, checkConfig config = .error why → boot p config image = .fatal (.configFatal why)) ∧
    (∀ cfgs why, checkConfig config = .ok cfgs → loadImage image = .error why →
      boot p config image = .fatal why) ∧
    (∀ c1 c2 ws, checkConfig config = .ok (c1, c2) → loadImage image = .ok ws →
      ∃ s, boot p config image = .ready s ∧ s.Inv ∧ s.status = .running ∧ s.pc = 0#16 ∧ s.params = p ∧
        s.l1 = Cache.empty c1 ∧ s.l2 = c2.map Cache.empty ∧ s.out = configRecords c1 c2 ∧
        ∀ a, s.mem.read a = ws.getD (a % 8192) 0#16)

/-! ### The assembler (R340, R341: general knowledge, no part of the hardware) -/

/-- R340, R341 (general knowledge, no part of the source; layout by the spec's decisions D2, D3, D6; which raw
operands fit is log 17; that jeq takes a number as an absolute target, as it does a label, is the model's choice,
log 24): for each form of item, with its operands in range, the word it becomes and the instruction
that word decodes to. -/
def Obligations.AssembledWordDecodesToTheItem : Prop :=
  ∀ (syms : AsmSymbols) (pc : Nat),
    (∀ d a b : RegIdx,
      (AsmItem.add d a b).Assembles syms pc (.add d a b) ∧ (AsmItem.sub d a b).Assembles syms pc (.sub d a b) ∧
      (AsmItem.or d a b).Assembles syms pc (.or d a b) ∧ (AsmItem.and d a b).Assembles syms pc (.and d a b) ∧
      (AsmItem.slt d a b).Assembles syms pc (.slt d a b)) ∧
    (∀ a : RegIdx, (AsmItem.jr a).Assembles syms pc (.jr a)) ∧
    (∀ (b a : RegIdx) (x : AsmValue) (v : Int), x.StandsFor syms v → -64 ≤ v → v ≤ 63 →
      (AsmItem.addi b a x).Assembles syms pc (.addi b a (BitVec.ofInt 7 v)) ∧
      (AsmItem.slti b a x).Assembles syms pc (.slti b a (BitVec.ofInt 7 v)) ∧
      (AsmItem.lw b x a).Assembles syms pc (.lw b a (BitVec.ofInt 7 v)) ∧
      (AsmItem.sw b x a).Assembles syms pc (.sw b a (BitVec.ofInt 7 v)) ∧
      (AsmItem.movi b x).Assembles syms pc (.addi b 0 (BitVec.ofInt 7 v))) ∧
    (∀ (a b : RegIdx) (x : AsmValue) (v : Int), x.StandsFor syms v → -64 ≤ v - (pc + 1) → v - (pc + 1) ≤ 63 →
      (AsmItem.jeq a b x).Assembles syms pc (.jeq a b (BitVec.ofInt 7 (v - (pc + 1))))) ∧
    (∀ (x : AsmValue) (v : Int), x.StandsFor syms v → 0 ≤ v → v ≤ 8191 →
      (AsmItem.j x).Assembles syms pc (.j (BitVec.ofInt 13 v)) ∧
      (AsmItem.jal x).Assembles syms pc (.jal (BitVec.ofInt 13 v))) ∧
    AsmItem.nop.word syms pc = some 0x0000#16 ∧ AsmItem.nop.Assembles syms pc (.add 0 0 0) ∧
    (pc ≤ 8191 → AsmItem.halt.Assembles syms pc (.j (BitVec.ofNat 13 pc))) ∧
    (∀ (x : AsmValue) (v : Int), x.StandsFor syms v → 0 ≤ v → v ≤ 65535 →
      (AsmItem.fill x).word syms pc = some (BitVec.ofInt 16 v))

/-- R340, R206 (the program is placed from address 0; that the first of two definitions of a label counts is log 17):
an assembled program has one word for each line, each the word of its item at the line's own address, and a label
names the address of the first line that bears it. -/
def Obligations.AssembledProgramIsItsLinesInOrder : Prop :=
  ∀ lines : List AsmLine,
    (∀ ws, assemble lines = some ws ↔ ws.length = lines.length ∧
      ∀ (k : Nat) (l : AsmLine), lines[k]? = some l →
        ∃ w, ws[k]? = some w ∧ l.item.word (asmSymbolsFrom 0 lines) k = some w) ∧
    (∀ (k : Nat) (l : AsmLine) (name : String), lines[k]? = some l → name ∈ l.labels →
      (∀ j < k, ∀ l', lines[j]? = some l' → name ∉ l'.labels) →
      (AsmValue.label name).StandsFor (asmSymbolsFrom 0 lines) k)

/-- R341, R131: the `halt` pseudo-instruction, assembled for its own address, halts a machine that reaches it there
and changes nothing else but the step count. -/
def Obligations.HaltPseudoInstructionHalts : Prop :=
  ∀ s : State, s.status = .running → s.pc.toNat < 8192 →
    AsmItem.halt.word [] s.pc.toNat = some s.fetch →
    step s = .next { s with status := .halted, steps := s.steps + 1 }
end

