-- ==== Sys2Proof/Laws/Assembly.lean ====
section
/-! SUPPORT. What the assembler's operations can do: a raw operand in its field's range becomes that field's bits, and
an operand stands for one number. -/

namespace Sys2Proof.Machine

@[simp] theorem asmReg_val (r : RegIdx) : asmReg r.val = some r := by
  simp only [asmReg, r.isLt, dite_true]

/-- R310's range. -/
theorem asmImm7_of_range {v : Int} (h0 : -64 ≤ v) (h1 : v ≤ 63) : asmImm7 v = some (BitVec.ofInt 7 v) := by
  refine if_pos ?_
  rw [BitVec.toInt_ofInt, Int.bmod_eq_of_le] <;> simp only [IMM7BITS] <;> omega

/-- An unsigned field holds every number below its limit. -/
theorem asmUnsigned_of_range {n : Nat} {v : Int} (h0 : 0 ≤ v) (h1 : v < ((2 ^ n : Nat) : Int)) :
    asmUnsigned n v = some (BitVec.ofInt n v) := by
  refine if_pos ?_
  rw [BitVec.toNat_ofInt, Int.emod_eq_of_lt h0 h1, Int.toNat_of_nonneg h0]

/-- R311's range. -/
theorem asmImm13_of_range {v : Int} (h0 : 0 ≤ v) (h1 : v < 8192) : asmImm13 v = some (BitVec.ofInt 13 v) :=
  asmUnsigned_of_range (n := 13) h0 h1

theorem asmWord_of_range {v : Int} (h0 : 0 ≤ v) (h1 : v < 65536) : asmWord v = some (BitVec.ofInt 16 v) :=
  asmUnsigned_of_range (n := 16) h0 h1

theorem AsmValue.StandsFor.resolve_eq {syms : AsmSymbols} {x : AsmValue} {v : Int} (h : x.StandsFor syms v) :
    x.resolve syms = some v := by
  obtain rfl | ⟨name, a, rfl, ha, rfl⟩ := h
  · rfl
  · simp [AsmValue.resolve, ha]

/-- A program has words exactly when each line has one, and they are the lines' in order. -/
theorem asmWordsFrom_eq_some_iff {syms : AsmSymbols} {pc : Nat} {lines : List AsmLine} {ws : List Word} :
    asmWordsFrom syms pc lines = some ws ↔ ws.length = lines.length ∧
      ∀ (k : Nat) (l : AsmLine), lines[k]? = some l →
        ∃ w, ws[k]? = some w ∧ l.item.word syms (pc + k) = some w := by
  induction lines generalizing pc ws with
  | nil => cases ws <;> simp [asmWordsFrom]
  | cons l ls ih =>
    have shift (k : Nat) : pc + (k + 1) = pc + 1 + k := by omega
    constructor
    · intro h
      obtain ⟨w, hw, h⟩ := Option.bind_eq_some_iff.1 h
      obtain ⟨rest, hr, rfl⟩ := Option.map_eq_some_iff.1 h
      obtain ⟨hlen, hk⟩ := ih.1 hr
      refine ⟨by simp [hlen], fun k l' e => ?_⟩
      cases k with
      | zero => cases e; exact ⟨w, rfl, hw⟩
      | succ k => rw [shift]; exact hk k l' e
    · rintro ⟨hlen, hk⟩
      obtain ⟨w, hw0, hw⟩ := hk 0 l rfl
      cases ws with
      | nil => cases hw0
      | cons x rest =>
        cases hw0
        have hr := ih.2 ⟨by simpa using hlen, fun k l' e => by have := hk (k + 1) l' e; rwa [shift] at this⟩
        simp only [asmWordsFrom, hr]
        rw [show l.item.word syms pc = some w from hw]
        rfl

/-- A label that no line before line `k` defines names the address of line `k`. -/
theorem lookup_asmSymbolsFrom {pc k : Nat} {lines : List AsmLine} {l : AsmLine} {name : String}
    (hl : lines[k]? = some l) (hn : name ∈ l.labels)
    (first : ∀ j < k, ∀ l', lines[j]? = some l' → name ∉ l'.labels) :
    (asmSymbolsFrom pc lines).lookup name = some (pc + k) := by
  have here : ∀ (labels : List String) (a : Nat) (rest : AsmSymbols), name ∈ labels →
      (labels.map (fun n => (n, a)) ++ rest).lookup name = some a := by
    intro labels a rest h
    induction labels with
    | nil => cases h
    | cons x xs ih =>
      by_cases hx : name = x
      · simp [hx]
      · simp [List.lookup, beq_false_of_ne hx, ih (by simpa [hx] using h)]
  have skip : ∀ (labels : List String) (a : Nat) (rest : AsmSymbols), name ∉ labels →
      (labels.map (fun n => (n, a)) ++ rest).lookup name = rest.lookup name := by
    intro labels a rest h
    induction labels with
    | nil => rfl
    | cons x xs ih =>
      obtain ⟨hx, hxs⟩ := not_or.1 (List.mem_cons.not.1 h)
      simp [List.lookup, beq_false_of_ne hx, ih hxs]
  induction lines generalizing pc k with
  | nil => cases hl
  | cons m ms ih =>
    cases k with
    | zero => cases hl; exact here _ _ _ hn
    | succ k =>
      rw [asmSymbolsFrom, skip _ _ _ (first 0 (by omega) m rfl),
        ih hl (fun j hj l' h => first (j + 1) (by omega) l' h)]
      congr 1; omega

end Sys2Proof.Machine
end

