-- ==== Sys2Proof/Laws/State.lean ====
section
/-! SUPPORT. One lemma per field of State per update of it, so that no proof unfolds a record update. -/

namespace Sys2Proof.Machine

/-! ### State.writeReg -/

@[simp] theorem State.writeReg_regs (s : State) (r : RegIdx) (v : Word) :
    (s.writeReg r v).regs = s.regs.set r.val v r.isLt := rfl
@[simp] theorem State.writeReg_pc (s : State) (r : RegIdx) (v : Word) :
    (s.writeReg r v).pc = s.pc := rfl
@[simp] theorem State.writeReg_mem (s : State) (r : RegIdx) (v : Word) :
    (s.writeReg r v).mem = s.mem := rfl
@[simp] theorem State.writeReg_l1 (s : State) (r : RegIdx) (v : Word) :
    (s.writeReg r v).l1 = s.l1 := rfl
@[simp] theorem State.writeReg_l2 (s : State) (r : RegIdx) (v : Word) :
    (s.writeReg r v).l2 = s.l2 := rfl
@[simp] theorem State.writeReg_steps (s : State) (r : RegIdx) (v : Word) :
    (s.writeReg r v).steps = s.steps := rfl
@[simp] theorem State.writeReg_status (s : State) (r : RegIdx) (v : Word) :
    (s.writeReg r v).status = s.status := rfl
@[simp] theorem State.writeReg_out (s : State) (r : RegIdx) (v : Word) :
    (s.writeReg r v).out = s.out := rfl
@[simp] theorem State.writeReg_params (s : State) (r : RegIdx) (v : Word) :
    (s.writeReg r v).params = s.params := rfl

/-! ### State.memWrite -/

@[simp] theorem State.memWrite_regs (s : State) (a : Nat) (v : Word) :
    (s.memWrite a v).regs = s.regs := rfl
@[simp] theorem State.memWrite_pc (s : State) (a : Nat) (v : Word) :
    (s.memWrite a v).pc = s.pc := rfl
@[simp] theorem State.memWrite_mem (s : State) (a : Nat) (v : Word) :
    (s.memWrite a v).mem = s.mem.write a v := rfl
@[simp] theorem State.memWrite_l1 (s : State) (a : Nat) (v : Word) :
    (s.memWrite a v).l1 = s.l1 := rfl
@[simp] theorem State.memWrite_l2 (s : State) (a : Nat) (v : Word) :
    (s.memWrite a v).l2 = s.l2 := rfl
@[simp] theorem State.memWrite_steps (s : State) (a : Nat) (v : Word) :
    (s.memWrite a v).steps = s.steps := rfl
@[simp] theorem State.memWrite_status (s : State) (a : Nat) (v : Word) :
    (s.memWrite a v).status = s.status := rfl
@[simp] theorem State.memWrite_out (s : State) (a : Nat) (v : Word) :
    (s.memWrite a v).out = s.out := rfl
@[simp] theorem State.memWrite_params (s : State) (a : Nat) (v : Word) :
    (s.memWrite a v).params = s.params := rfl

/-! ### State.emit -/

@[simp] theorem State.emit_regs (s : State) (r : Record) :
    (s.emit r).regs = s.regs := rfl
@[simp] theorem State.emit_pc (s : State) (r : Record) :
    (s.emit r).pc = s.pc := rfl
@[simp] theorem State.emit_mem (s : State) (r : Record) :
    (s.emit r).mem = s.mem := rfl
@[simp] theorem State.emit_l1 (s : State) (r : Record) :
    (s.emit r).l1 = s.l1 := rfl
@[simp] theorem State.emit_l2 (s : State) (r : Record) :
    (s.emit r).l2 = s.l2 := rfl
@[simp] theorem State.emit_steps (s : State) (r : Record) :
    (s.emit r).steps = s.steps := rfl
@[simp] theorem State.emit_status (s : State) (r : Record) :
    (s.emit r).status = s.status := rfl
@[simp] theorem State.emit_out (s : State) (r : Record) :
    (s.emit r).out = s.out ++ [r] := rfl
@[simp] theorem State.emit_params (s : State) (r : Record) :
    (s.emit r).params = s.params := rfl

/-! ### State.halt -/

@[simp] theorem State.halt_regs (s : State) :
    (s.halt).regs = s.regs := rfl
@[simp] theorem State.halt_pc (s : State) :
    (s.halt).pc = s.pc := rfl
@[simp] theorem State.halt_mem (s : State) :
    (s.halt).mem = s.mem := rfl
@[simp] theorem State.halt_l1 (s : State) :
    (s.halt).l1 = s.l1 := rfl
@[simp] theorem State.halt_l2 (s : State) :
    (s.halt).l2 = s.l2 := rfl
@[simp] theorem State.halt_steps (s : State) :
    (s.halt).steps = s.steps := rfl
@[simp] theorem State.halt_status (s : State) :
    (s.halt).status = .halted := rfl
@[simp] theorem State.halt_out (s : State) :
    (s.halt).out = s.out := rfl
@[simp] theorem State.halt_params (s : State) :
    (s.halt).params = s.params := rfl

/-! ### State.advance -/

@[simp] theorem State.advance_regs (s : State) (p : Word) :
    (s.advance p).regs = s.regs.set 0 0#16 := rfl
@[simp] theorem State.advance_pc (s : State) (p : Word) :
    (s.advance p).pc = p := rfl
@[simp] theorem State.advance_mem (s : State) (p : Word) :
    (s.advance p).mem = s.mem := rfl
@[simp] theorem State.advance_l1 (s : State) (p : Word) :
    (s.advance p).l1 = s.l1 := rfl
@[simp] theorem State.advance_l2 (s : State) (p : Word) :
    (s.advance p).l2 = s.l2 := rfl
@[simp] theorem State.advance_steps (s : State) (p : Word) :
    (s.advance p).steps = s.steps := rfl
@[simp] theorem State.advance_status (s : State) (p : Word) :
    (s.advance p).status = s.status := rfl
@[simp] theorem State.advance_out (s : State) (p : Word) :
    (s.advance p).out = s.out := rfl
@[simp] theorem State.advance_params (s : State) (p : Word) :
    (s.advance p).params = s.params := rfl

/-! ### State.tick -/

@[simp] theorem State.tick_regs (s : State) :
    (s.tick).regs = s.regs := rfl
@[simp] theorem State.tick_pc (s : State) :
    (s.tick).pc = s.pc := rfl
@[simp] theorem State.tick_mem (s : State) :
    (s.tick).mem = s.mem := rfl
@[simp] theorem State.tick_l1 (s : State) :
    (s.tick).l1 = s.l1 := rfl
@[simp] theorem State.tick_l2 (s : State) :
    (s.tick).l2 = s.l2 := rfl
@[simp] theorem State.tick_steps (s : State) :
    (s.tick).steps = s.steps + 1 := rfl
@[simp] theorem State.tick_status (s : State) :
    (s.tick).status = s.status := rfl
@[simp] theorem State.tick_out (s : State) :
    (s.tick).out = s.out := rfl
@[simp] theorem State.tick_params (s : State) :
    (s.tick).params = s.params := rfl

/-! ### State.raiseIllegalInstruction -/

@[simp] theorem State.raiseIllegalInstruction_regs (s : State) (w : Word) :
    (s.raiseIllegalInstruction w).regs = s.regs := rfl
@[simp] theorem State.raiseIllegalInstruction_pc (s : State) (w : Word) :
    (s.raiseIllegalInstruction w).pc = s.pc := rfl
@[simp] theorem State.raiseIllegalInstruction_mem (s : State) (w : Word) :
    (s.raiseIllegalInstruction w).mem = s.mem := rfl
@[simp] theorem State.raiseIllegalInstruction_l1 (s : State) (w : Word) :
    (s.raiseIllegalInstruction w).l1 = s.l1 := rfl
@[simp] theorem State.raiseIllegalInstruction_l2 (s : State) (w : Word) :
    (s.raiseIllegalInstruction w).l2 = s.l2 := rfl
@[simp] theorem State.raiseIllegalInstruction_steps (s : State) (w : Word) :
    (s.raiseIllegalInstruction w).steps = s.steps := rfl
@[simp] theorem State.raiseIllegalInstruction_status (s : State) (w : Word) :
    (s.raiseIllegalInstruction w).status = .faulted (.illegalInstruction s.pc w) := rfl
@[simp] theorem State.raiseIllegalInstruction_out (s : State) (w : Word) :
    (s.raiseIllegalInstruction w).out = s.out := rfl
@[simp] theorem State.raiseIllegalInstruction_params (s : State) (w : Word) :
    (s.raiseIllegalInstruction w).params = s.params := rfl

/-! ### State.accessL1 -/

@[simp] theorem State.accessL1_regs (s : State) (q : CacheRequest) :
    (s.accessL1 q).regs = s.regs := rfl
@[simp] theorem State.accessL1_pc (s : State) (q : CacheRequest) :
    (s.accessL1 q).pc = s.pc := rfl
@[simp] theorem State.accessL1_mem (s : State) (q : CacheRequest) :
    (s.accessL1 q).mem = s.mem := rfl
@[simp] theorem State.accessL1_l1 (s : State) (q : CacheRequest) :
    (s.accessL1 q).l1 = (s.l1.access q.kind q.addr).cache := rfl
@[simp] theorem State.accessL1_l2 (s : State) (q : CacheRequest) :
    (s.accessL1 q).l2 = s.l2 := rfl
@[simp] theorem State.accessL1_steps (s : State) (q : CacheRequest) :
    (s.accessL1 q).steps = s.steps := rfl
@[simp] theorem State.accessL1_status (s : State) (q : CacheRequest) :
    (s.accessL1 q).status = s.status := rfl
@[simp] theorem State.accessL1_out (s : State) (q : CacheRequest) :
    (s.accessL1 q).out = s.out ++ [accessRecord .l1 q (s.l1.access q.kind q.addr)] := rfl
@[simp] theorem State.accessL1_params (s : State) (q : CacheRequest) :
    (s.accessL1 q).params = s.params := rfl

/-! ### State.resetOf -/

@[simp] theorem State.resetOf_regs (p : Params) (c1 : CacheCfg) (c2 : Option CacheCfg) :
    (State.resetOf p c1 c2).regs = Vector.replicate 8 0#16 := rfl
@[simp] theorem State.resetOf_pc (p : Params) (c1 : CacheCfg) (c2 : Option CacheCfg) :
    (State.resetOf p c1 c2).pc = 0#16 := rfl
@[simp] theorem State.resetOf_mem (p : Params) (c1 : CacheCfg) (c2 : Option CacheCfg) :
    (State.resetOf p c1 c2).mem = [] := rfl
@[simp] theorem State.resetOf_l1 (p : Params) (c1 : CacheCfg) (c2 : Option CacheCfg) :
    (State.resetOf p c1 c2).l1 = Cache.empty c1 := rfl
@[simp] theorem State.resetOf_l2 (p : Params) (c1 : CacheCfg) (c2 : Option CacheCfg) :
    (State.resetOf p c1 c2).l2 = c2.map Cache.empty := rfl
@[simp] theorem State.resetOf_steps (p : Params) (c1 : CacheCfg) (c2 : Option CacheCfg) :
    (State.resetOf p c1 c2).steps = 0 := rfl
@[simp] theorem State.resetOf_status (p : Params) (c1 : CacheCfg) (c2 : Option CacheCfg) :
    (State.resetOf p c1 c2).status = .running := rfl
@[simp] theorem State.resetOf_out (p : Params) (c1 : CacheCfg) (c2 : Option CacheCfg) :
    (State.resetOf p c1 c2).out = configRecords c1 c2 := rfl
@[simp] theorem State.resetOf_params (p : Params) (c1 : CacheCfg) (c2 : Option CacheCfg) :
    (State.resetOf p c1 c2).params = p := rfl

end Sys2Proof.Machine
end

