-- ==== Sys2Proof/Laws/Cache.lean ====
section
/-! SUPPORT. What the cache operations of Machine/CacheHierarchy.lean can do, said once: the lookup, the choice of a
way, one access to a row, and the frame of the two-level operation. -/

namespace Sys2Proof.Machine

/-! ### Ways of a row -/

theorem Row.occupiedAt_of_lt {R : Row} {w : Nat} (h : w < R.ways.length) :
    R.occupiedAt w = R.ways[w].occupied := by
  simp [Row.occupiedAt, h]

theorem Row.tagAt_of_lt {R : Row} {w : Nat} (h : w < R.ways.length) : R.tagAt w = R.ways[w].tag := by
  simp [Row.tagAt, h]

/-- An occupied way exists. -/
theorem Row.lt_of_occupiedAt {R : Row} {w : Nat} (h : R.occupiedAt w = true) : w < R.ways.length := by
  by_contra hn
  simp [Row.occupiedAt, List.getElem?_eq_none (Nat.le_of_not_lt hn), Way.empty] at h

theorem Row.lookup_some {R : Row} {t w : Nat} (h : R.lookup t = some w) :
    R.occupiedAt w = true ∧ R.tagAt w = t := by
  obtain ⟨hlt, hp, -⟩ := List.findIdx?_eq_some_iff_getElem.1 h
  simp only [Bool.and_eq_true, beq_iff_eq] at hp
  exact ⟨by rw [Row.occupiedAt_of_lt hlt]; exact hp.1, by rw [Row.tagAt_of_lt hlt]; exact hp.2⟩

theorem Row.lookup_none {R : Row} {t : Nat} (h : R.lookup t = none) (w : Nat)
    (hw : R.occupiedAt w = true) : R.tagAt w ≠ t := by
  have hlt := Row.lt_of_occupiedAt hw
  have := List.findIdx?_eq_none_iff.1 h R.ways[w] (List.getElem_mem hlt)
  rw [Row.occupiedAt_of_lt hlt] at hw
  rw [Row.tagAt_of_lt hlt]
  simp_all

theorem Row.firstFree_some {R : Row} {v : Nat} (h : R.firstFree = some v) :
    v < R.ways.length ∧ R.occupiedAt v = false ∧ ∀ w < v, R.occupiedAt w = true := by
  obtain ⟨hlt, hp, hbefore⟩ := List.findIdx?_eq_some_iff_getElem.1 h
  refine ⟨hlt, by rw [Row.occupiedAt_of_lt hlt]; simpa using hp, fun w hw => ?_⟩
  rw [Row.occupiedAt_of_lt (hw.trans hlt)]
  simpa using hbefore w hw

theorem Row.firstFree_none {R : Row} (h : R.firstFree = none) (w : Nat) (hw : w < R.ways.length) :
    R.occupiedAt w = true := by
  have := List.findIdx?_eq_none_iff.1 h R.ways[w] (List.getElem_mem hw)
  rw [Row.occupiedAt_of_lt hw]
  simpa using this

/-! ### One access to a row -/

/-- An access promotes an occupied way that holds the tag, or, when there is none, fills the victim. -/
theorem Row.access_cases (R : Row) (t : Nat) :
    (∃ w, R.occupiedAt w = true ∧ R.tagAt w = t ∧ R.access t = (R.promote w, .hit)) ∨
    ((∀ w, R.occupiedAt w = true → R.tagAt w ≠ t) ∧ R.access t = (R.fill R.victim t, .miss)) := by
  unfold Row.access
  split
  · rename_i w h
    exact .inl ⟨w, (Row.lookup_some h).1, (Row.lookup_some h).2, rfl⟩
  · rename_i h
    exact .inr ⟨Row.lookup_none h, rfl⟩

/-- The victim is the lowest unoccupied way, or, in a full row, the back of `order` (R233). -/
theorem Row.victim_cases (R : Row) :
    (R.victim < R.ways.length ∧ R.occupiedAt R.victim = false ∧ ∀ w < R.victim, R.occupiedAt w = true) ∨
    ((∀ w < R.ways.length, R.occupiedAt w = true) ∧ R.victim = R.order.getLastD 0) := by
  unfold Row.victim
  cases h : R.firstFree with
  | some v => exact .inl (Row.firstFree_some h)
  | none => exact .inr ⟨Row.firstFree_none h, rfl⟩

@[simp] theorem Row.promote_ways (R : Row) (w : Nat) : (R.promote w).ways = R.ways := rfl

@[simp] theorem Row.occupiedAt_promote (R : Row) (w v : Nat) :
    (R.promote w).occupiedAt v = R.occupiedAt v := rfl

@[simp] theorem Row.tagAt_promote (R : Row) (w v : Nat) : (R.promote w).tagAt v = R.tagAt v := rfl

theorem Row.occupiedAt_fill {R : Row} {v : Nat} (h : v < R.ways.length) (t w : Nat) :
    (R.fill v t).occupiedAt w = if w = v then true else R.occupiedAt w := by
  by_cases hw : w = v
  · subst hw; simp [Row.occupiedAt, Row.fill, h]
  · simp [Row.occupiedAt, Row.fill, hw, Ne.symm hw]

theorem Row.tagAt_fill {R : Row} {v : Nat} (h : v < R.ways.length) (t w : Nat) :
    (R.fill v t).tagAt w = if w = v then t else R.tagAt w := by
  by_cases hw : w = v
  · subst hw; simp [Row.tagAt, Row.fill, h]
  · simp [Row.tagAt, Row.fill, hw, Ne.symm hw]

/-! ### One access to a cache -/

@[simp] theorem Cache.access_cfg (C : Cache) (k : AccessKind) (a : Addr) : (C.access k a).cache.cfg = C.cfg := rfl

/-- An access changes the row it falls in and no other (R232, R233). -/
theorem Cache.rowAt_access (C : Cache) (k : AccessKind) (a : Addr) (h : C.cfg.rowOf a < C.rows.length) (r : Nat) :
    (C.access k a).cache.rowAt r =
      if r = C.cfg.rowOf a then ((C.rowAt (C.cfg.rowOf a)).access (C.cfg.tagOf a)).1 else C.rowAt r := by
  by_cases hr : r = C.cfg.rowOf a
  · subst hr; simp [Cache.access, Cache.rowAt, h]
  · simp [Cache.access, Cache.rowAt, hr, Ne.symm hr]

theorem Cache.status_access (C : Cache) (k : AccessKind) (a : Addr) :
    (C.access k a).status = ((C.rowAt (C.cfg.rowOf a)).access (C.cfg.tagOf a)).2 := rfl

/-! ### The two levels -/

/-- The frame of `CacheAccess`: the caches and the record stream alone change (R231, R243). -/
theorem State.cacheAccess_frame (s : State) (q : CacheRequest) :
    (s.cacheAccess q).regs = s.regs ∧ (s.cacheAccess q).pc = s.pc ∧ (s.cacheAccess q).mem = s.mem ∧
    (s.cacheAccess q).steps = s.steps ∧ (s.cacheAccess q).status = s.status ∧
    (s.cacheAccess q).params = s.params := by
  unfold State.cacheAccess State.accessL2
  split
  · exact ⟨rfl, rfl, rfl, rfl, rfl, rfl⟩
  · split <;> exact ⟨rfl, rfl, rfl, rfl, rfl, rfl⟩

@[simp] theorem State.cacheAccess_regs (s : State) (q : CacheRequest) : (s.cacheAccess q).regs = s.regs :=
  (s.cacheAccess_frame q).1

@[simp] theorem State.cacheAccess_pc (s : State) (q : CacheRequest) : (s.cacheAccess q).pc = s.pc :=
  (s.cacheAccess_frame q).2.1

@[simp] theorem State.cacheAccess_mem (s : State) (q : CacheRequest) : (s.cacheAccess q).mem = s.mem :=
  (s.cacheAccess_frame q).2.2.1

@[simp] theorem State.cacheAccess_steps (s : State) (q : CacheRequest) : (s.cacheAccess q).steps = s.steps :=
  (s.cacheAccess_frame q).2.2.2.1

@[simp] theorem State.cacheAccess_status (s : State) (q : CacheRequest) : (s.cacheAccess q).status = s.status :=
  (s.cacheAccess_frame q).2.2.2.2.1

@[simp] theorem State.cacheAccess_params (s : State) (q : CacheRequest) : (s.cacheAccess q).params = s.params :=
  (s.cacheAccess_frame q).2.2.2.2.2

/-- R240, R241: what `CacheAccess` does to the two caches and the records, by the L1 status and L2's presence. -/
theorem State.cacheAccess_cases (s : State) (q : CacheRequest) :
    ((s.l1.access q.kind q.addr).status = .hit ∧ s.cacheAccess q = s.accessL1 q) ∨
    ((s.l1.access q.kind q.addr).status = .miss ∧ s.l2 = none ∧ s.cacheAccess q = s.accessL1 q) ∨
    (∃ c, (s.l1.access q.kind q.addr).status = .miss ∧ s.l2 = some c ∧
      s.cacheAccess q = { s.accessL1 q with
        l2 := some (c.access q.kind q.addr).cache
        out := (s.accessL1 q).out ++ [accessRecord .l2 q (c.access q.kind q.addr)] }) := by
  unfold State.cacheAccess State.accessL2
  split
  · rename_i h; exact .inl ⟨h, rfl⟩
  · rename_i h
    cases hl2 : s.l2 with
    | none => exact .inr (.inl ⟨h, rfl, by simp [hl2]⟩)
    | some c => exact .inr (.inr ⟨c, h, rfl, by simp [hl2]⟩)

end Sys2Proof.Machine
end

