-- ==== Sys2Proof/Laws/Encoding.lean ====
section
/-! SUPPORT. The fields of an encoded word: each is what was encoded. -/

namespace Sys2Proof

/-- A 3-bit field that is a register's bits names that register. -/
theorem toFin_of_eq_regBits {x : BitVec 3} {r : RegIdx} (h : x = regBits r) : (x.toFin : RegIdx) = r := by
  subst h; rfl

theorem fieldA_encodeR (a b d : RegIdx) (f : FuncCode) : fieldA (encodeR a b d f) = a := by
  apply toFin_of_eq_regBits
  unfold encodeR
  ext k hk
  simp only [BitVec.getElem_extractLsb', BitVec.getLsbD_append]
  interval_cases k <;> simp

theorem fieldB_encodeR (a b d : RegIdx) (f : FuncCode) : fieldB (encodeR a b d f) = b := by
  apply toFin_of_eq_regBits
  unfold encodeR
  ext k hk
  simp only [BitVec.getElem_extractLsb', BitVec.getLsbD_append]
  interval_cases k <;> simp

theorem fieldD_encodeR (a b d : RegIdx) (f : FuncCode) : fieldD (encodeR a b d f) = d := by
  apply toFin_of_eq_regBits
  unfold encodeR
  ext k hk
  simp only [BitVec.getElem_extractLsb', BitVec.getLsbD_append]
  interval_cases k <;> simp

theorem funcOf_encodeR (a b d : RegIdx) (f : FuncCode) : funcOf (encodeR a b d f) = f := by
  unfold funcOf encodeR
  ext k hk
  simp only [BitVec.getElem_extractLsb', BitVec.getLsbD_append]
  interval_cases k <;> simp

theorem opcodeOf_encodeR (a b d : RegIdx) (f : FuncCode) : opcodeOf (encodeR a b d f) = opRegister := by
  unfold opcodeOf encodeR
  ext k hk
  simp only [BitVec.getElem_extractLsb', BitVec.getLsbD_append]
  interval_cases k <;> simp

theorem fieldA_encodeI (op : Opcode) (a b : RegIdx) (imm : Imm7) : fieldA (encodeI op a b imm) = a := by
  apply toFin_of_eq_regBits
  unfold encodeI
  ext k hk
  simp only [BitVec.getElem_extractLsb', BitVec.getLsbD_append]
  interval_cases k <;> simp

theorem fieldB_encodeI (op : Opcode) (a b : RegIdx) (imm : Imm7) : fieldB (encodeI op a b imm) = b := by
  apply toFin_of_eq_regBits
  unfold encodeI
  ext k hk
  simp only [BitVec.getElem_extractLsb', BitVec.getLsbD_append]
  interval_cases k <;> simp

theorem imm7Of_encodeI (op : Opcode) (a b : RegIdx) (imm : Imm7) : imm7Of (encodeI op a b imm) = imm := by
  unfold imm7Of encodeI
  ext k hk
  simp only [BitVec.getElem_extractLsb', BitVec.getLsbD_append]
  interval_cases k <;> simp

theorem opcodeOf_encodeI (op : Opcode) (a b : RegIdx) (imm : Imm7) : opcodeOf (encodeI op a b imm) = op := by
  unfold opcodeOf encodeI
  ext k hk
  simp only [BitVec.getElem_extractLsb', BitVec.getLsbD_append]
  interval_cases k <;> simp

theorem imm13Of_encodeJ (op : Opcode) (imm : Imm13) : imm13Of (encodeJ op imm) = imm := by
  unfold imm13Of encodeJ
  ext k hk
  simp only [BitVec.getElem_extractLsb', BitVec.getLsbD_append]
  interval_cases k <;> simp

theorem opcodeOf_encodeJ (op : Opcode) (imm : Imm13) : opcodeOf (encodeJ op imm) = op := by
  unfold opcodeOf encodeJ
  ext k hk
  simp only [BitVec.getElem_extractLsb', BitVec.getLsbD_append]
  interval_cases k <;> simp

/-- The opcode of a word, read under the I- and J-format rows' mask (R320). -/
theorem and_opcode_mask (w : Word) : w &&& 0xE000#16 = (opcodeOf w).setWidth 16 <<< 13 := by
  unfold opcodeOf
  ext k hk
  simp only [BitVec.getElem_and, BitVec.getElem_shiftLeft, BitVec.getElem_setWidth]
  interval_cases k <;> simp

/-- The opcode and function code of a word, read under the R-format rows' mask (R320). -/
theorem and_func_mask (w : Word) :
    w &&& 0xE00F#16 = (opcodeOf w).setWidth 16 <<< 13 ||| (funcOf w).setWidth 16 := by
  unfold opcodeOf funcOf
  ext k hk
  simp only [BitVec.getElem_and, BitVec.getElem_or, BitVec.getElem_shiftLeft, BitVec.getElem_setWidth]
  interval_cases k <;> simp

end Sys2Proof
end

