-- ==== Sys2Proof/Laws/Memory.lean ====
section
/-! SUPPORT. The memory's laws: what a read answers after a write (20_memory.md R201), and that every operation
keeps the canonical form. -/

namespace Sys2Proof.Machine

theorem Memory.lookup_cons (e : Nat × Word) (m : Memory) (k : Nat) :
    Memory.lookup (e :: m) k = if e.1 = k then e.2 else Memory.lookup m k := by
  cases e; rfl

/-- A cell no entry lists is blank. -/
theorem Memory.lookup_of_unlisted {m : Memory} {k : Nat} (h : ∀ e ∈ m, e.1 ≠ k) :
    m.lookup k = Memory.blank := by
  induction m with
  | nil => rfl
  | cons e es ih =>
    rw [Memory.lookup_cons, if_neg (h e (by simp)), ih (fun x hx => h x (by simp [hx]))]

theorem Memory.lookup_filter_ne (m : Memory) (k j : Nat) :
    Memory.lookup (m.filter (fun e => e.1 != k)) j = if j = k then Memory.blank else m.lookup j := by
  induction m with
  | nil => simp [Memory.lookup]
  | cons e es ih =>
    by_cases hek : e.1 = k
    · rw [List.filter_cons_of_neg (by simp [hek]), ih, Memory.lookup_cons]
      split <;> simp_all
      omega
    · rw [List.filter_cons_of_pos (by simp [hek]), Memory.lookup_cons, ih, Memory.lookup_cons]
      split <;> simp_all

theorem Memory.lookup_insert {m : Memory} {k : Nat} (h : ∀ e ∈ m, e.1 ≠ k) (v : Word) (j : Nat) :
    Memory.lookup (Memory.insert k v m) j = if j = k then v else m.lookup j := by
  induction m with
  | nil => simp only [Memory.insert, Memory.lookup, eq_comm]
  | cons e es ih =>
    simp only [Memory.insert]
    split
    · simp only [Memory.lookup_cons, eq_comm]
    · rw [Memory.lookup_cons, ih (fun x hx => h x (by simp [hx])), Memory.lookup_cons]
      have := h e (by simp)
      split <;> split <;> simp_all

theorem Memory.lookup_put (m : Memory) (k : Nat) (v : Word) (j : Nat) :
    (m.put k v).lookup j = if j = k then v else m.lookup j := by
  have unlisted : ∀ e ∈ m.filter (fun e => e.1 != k), e.1 ≠ k := by
    intro e he; simpa using (List.mem_filter.1 he).2
  unfold Memory.put
  split
  · rw [Memory.lookup_filter_ne]; split <;> simp_all
  · rw [Memory.lookup_insert unlisted, Memory.lookup_filter_ne]; split <;> simp_all

/-- R201: a write sets the cell at `a mod 8192` and no other. -/
theorem Memory.read_write (m : Memory) (a : Nat) (v : Word) (b : Nat) :
    (m.write a v).read b = if b % MEMWORDS = a % MEMWORDS then v else m.read b :=
  Memory.lookup_put m _ v _

@[simp] theorem Memory.read_nil (a : Nat) : Memory.read [] a = Memory.blank := rfl

@[simp] theorem Memory.read_mod (m : Memory) (a : Nat) : m.read (a % 8192) = m.read a := by
  simp [Memory.read]

theorem Memory.mem_insert {k : Nat} {v : Word} {m : Memory} {e : Nat × Word} :
    e ∈ Memory.insert k v m ↔ e = (k, v) ∨ e ∈ m := by
  induction m with
  | nil => simp [Memory.insert]
  | cons x xs ih =>
    simp only [Memory.insert]
    split
    · simp
    · simp only [List.mem_cons, ih]
      exact ⟨fun h => by rcases h with h | h | h <;> simp [h], fun h => by rcases h with h | h | h <;> simp [h]⟩

theorem Memory.insert_rising {k : Nat} {v : Word} {m : Memory} (hk : ∀ e ∈ m, e.1 ≠ k)
    (h : m.Pairwise (fun x y => x.1 < y.1)) :
    (Memory.insert k v m).Pairwise (fun x y => x.1 < y.1) := by
  induction m with
  | nil => simp [Memory.insert]
  | cons x xs ih =>
    obtain ⟨hx, hxs⟩ := List.pairwise_cons.1 h
    simp only [Memory.insert]
    split
    · rename_i hlt
      refine List.pairwise_cons.2 ⟨fun y hy => ?_, h⟩
      rcases List.mem_cons.1 hy with rfl | hy
      · exact hlt
      · exact hlt.trans (hx y hy)
    · rename_i hge
      refine List.pairwise_cons.2 ⟨fun y hy => ?_, ih (fun e he => hk e (by simp [he])) hxs⟩
      rcases Memory.mem_insert.1 hy with rfl | hy
      · have := hk x (by simp); simp only; omega
      · exact hx y hy

/-- A write keeps the canonical form. -/
theorem Memory.write_wf {m : Memory} (h : m.wf) (a : Nat) (v : Word) : (m.write a v).wf := by
  obtain ⟨rising, cells⟩ := h
  have unlisted : ∀ e ∈ m.filter (fun e => e.1 != a % MEMWORDS), e.1 ≠ a % MEMWORDS := by
    intro e he; simpa using (List.mem_filter.1 he).2
  unfold Memory.write Memory.put
  split
  · exact ⟨rising.filter _, fun e he => cells e (List.mem_filter.1 he).1⟩
  · rename_i hv
    refine ⟨Memory.insert_rising unlisted (rising.filter _), fun e he => ?_⟩
    rcases Memory.mem_insert.1 he with rfl | he
    · exact ⟨Nat.mod_lt _ (by simp), hv⟩
    · exact cells e (List.mem_filter.1 he).1

theorem Memory.nil_wf : Memory.wf [] := by simp [Memory.wf]

/-- What an image's memory holds from its first address on (70_reset_and_hazards.md R712). -/
theorem Memory.lookup_ofImageFrom (k : Nat) (ws : List Word) (j : Nat) :
    (Memory.ofImageFrom k ws).lookup j = if j < k then Memory.blank else ws.getD (j - k) Memory.blank := by
  induction ws generalizing k with
  | nil => simp [Memory.ofImageFrom, Memory.lookup]
  | cons w ws ih =>
    simp only [Memory.ofImageFrom]
    rcases Nat.lt_trichotomy j k with h | rfl | h
    · split <;> simp [Memory.lookup_cons, ih, show j < k + 1 by omega, show k ≠ j by omega]
    · split <;> simp_all [Memory.lookup_cons]
    · have : j - k = j - (k + 1) + 1 := by omega
      split <;> simp [Memory.lookup_cons, ih, this, show ¬ j < k by omega, show ¬ j < k + 1 by omega,
        show k ≠ j by omega]

theorem Memory.ofImageFrom_addr {k : Nat} {ws : List Word} {e : Nat × Word}
    (h : e ∈ Memory.ofImageFrom k ws) : k ≤ e.1 ∧ e.1 < k + ws.length ∧ e.2 ≠ Memory.blank := by
  induction ws generalizing k with
  | nil => simp [Memory.ofImageFrom] at h
  | cons w ws ih =>
    simp only [Memory.ofImageFrom] at h
    split at h
    · have := ih h; simp only [List.length_cons]; exact ⟨by omega, by omega, this.2.2⟩
    · rename_i hw
      rcases List.mem_cons.1 h with rfl | h
      · simp [hw]
      · have := ih h; simp only [List.length_cons]; exact ⟨by omega, by omega, this.2.2⟩

/-- An image of at most 8192 words gives a memory in canonical form. -/
theorem Memory.ofImage_wf {ws : List Word} (h : ws.length ≤ MEMWORDS) : (Memory.ofImage ws).wf := by
  refine ⟨?_, fun e he => ?_⟩
  · suffices ∀ k, (Memory.ofImageFrom k ws).Pairwise (fun x y => x.1 < y.1) from this 0
    clear h
    induction ws with
    | nil => simp [Memory.ofImageFrom]
    | cons w ws ih =>
      intro k
      simp only [Memory.ofImageFrom]
      split
      · exact ih _
      · exact List.pairwise_cons.2 ⟨fun y hy => by have := Memory.ofImageFrom_addr hy; simp only; omega, ih _⟩
  · have := Memory.ofImageFrom_addr he
    exact ⟨by omega, this.2.2⟩

end Sys2Proof.Machine
end

