-- ==== Sys2Proof/Laws/Word.lean ====
section
/-! SUPPORT. The named constants as numbers: how they fit together, and the bounds and sums of words and addresses in
the form `omega` reads. -/

namespace Sys2Proof

/-- R8: `MEMWORDS = 2^AW`. -/
theorem memwords_eq : MEMWORDS = 2 ^ AW := rfl

/-- R302: a register field names every register and no other. -/
theorem nreg_eq : NREG = 2 ^ REGBITS := rfl

/-- R306: the fields of each format fill the word. -/
theorem formats_fill_word :
    OPCODEBITS + REGBITS + REGBITS + REGBITS + FUNCBITS = XLEN ∧
    OPCODEBITS + REGBITS + REGBITS + IMM7BITS = XLEN ∧ OPCODEBITS + IMM13BITS = XLEN := by decide

theorem Word.toNat_lt (w : Word) : w.toNat < 65536 := w.isLt

theorem Addr.toNat_lt (a : Addr) : a.toNat < 8192 := a.isLt

theorem Word.toNat_add (a b : Word) : (a + b).toNat = (a.toNat + b.toNat) % 65536 := BitVec.toNat_add a b

end Sys2Proof
end

