-- ==== Sys2Proof/Laws/Ops.lean ====
section
/-! SUPPORT. What each shared operation of Machine/Ops.lean can do, said once. -/

namespace Sys2Proof.Machine

/-! ### Registers -/

/-- R101: every read of register 0 returns 0. -/
@[simp] theorem State.readReg_zero (s : State) : s.readReg 0 = 0#16 := rfl

/-- A read depends on the register file alone. -/
theorem State.readReg_congr {s t : State} (h : t.regs = s.regs) (r : RegIdx) : t.readReg r = s.readReg r := by
  simp [State.readReg, h]

theorem State.readReg_writeReg (s : State) (d : RegIdx) (v : Word) (r : RegIdx) :
    (s.writeReg d v).readReg r = if r = 0 then 0#16 else if r = d then v else s.readReg r := by
  simp only [State.readReg, State.writeReg_regs, Vector.get_eq_getElem, Vector.getElem_set, Fin.ext_iff, eq_comm]
  split <;> simp_all

/-- The write of register 0 that ends an instruction is not seen by any read. -/
@[simp] theorem State.readReg_advance (s : State) (p : Word) (r : RegIdx) :
    (s.advance p).readReg r = s.readReg r := by
  by_cases hr : r = 0
  · subst hr; rfl
  · have : r.val ≠ 0 := fun h => hr (Fin.ext h)
    simp [State.readReg, Vector.get_eq_getElem, this.symm]

@[simp] theorem State.readReg_memWrite (s : State) (a : Nat) (v : Word) (r : RegIdx) :
    (s.memWrite a v).readReg r = s.readReg r := rfl

@[simp] theorem State.readReg_tick (s : State) (r : RegIdx) : s.tick.readReg r = s.readReg r := rfl

@[simp] theorem State.readReg_halt (s : State) (r : RegIdx) : s.halt.readReg r = s.readReg r := rfl

/-! ### The finish of an instruction -/

/-- The halt test reads only the pc (R131). -/
theorem State.haltsAt_iff (s : State) (p : Word) : s.haltsAt p = true ↔ p.toNat = s.pc.toNat % 8192 := by
  simp [State.haltsAt, State.pcCell]

/-- R133: `pc + 1` never equals `pc mod 8192`. -/
theorem State.nextPc_not_halting {s t : State} (h : t.pc = s.pc) : t.haltsAt (s.pc + 1#16) = false := by
  rw [Bool.eq_false_iff, ne_eq, State.haltsAt_iff, h, Word.toNat_add]
  have := Word.toNat_lt s.pc
  rw [show (1#16 : Word).toNat = 1 from rfl]
  omega

theorem State.retire_of_halts {s : State} {p : Word} (h : s.haltsAt p = true) : s.retire p = s.tick.halt := by
  simp [State.retire, h]

theorem State.retire_of_not_halts {s : State} {p : Word} (h : s.haltsAt p = false) :
    s.retire p = s.tick.advance p := by
  simp [State.retire, h]

@[simp] theorem State.retire_mem (s : State) (p : Word) : (s.retire p).mem = s.mem := by
  unfold State.retire; split <;> rfl

@[simp] theorem State.retire_l1 (s : State) (p : Word) : (s.retire p).l1 = s.l1 := by
  unfold State.retire; split <;> rfl

@[simp] theorem State.retire_l2 (s : State) (p : Word) : (s.retire p).l2 = s.l2 := by
  unfold State.retire; split <;> rfl

@[simp] theorem State.retire_out (s : State) (p : Word) : (s.retire p).out = s.out := by
  unfold State.retire; split <;> rfl

@[simp] theorem State.retire_params (s : State) (p : Word) : (s.retire p).params = s.params := by
  unfold State.retire; split <;> rfl

@[simp] theorem State.retire_steps (s : State) (p : Word) : (s.retire p).steps = s.steps + 1 := by
  unfold State.retire; split <;> rfl

@[simp] theorem State.readReg_retire (s : State) (p : Word) (r : RegIdx) :
    (s.retire p).readReg r = s.readReg r := by
  unfold State.retire; split <;> simp

theorem State.retire_status (s : State) (p : Word) :
    (s.retire p).status = if s.haltsAt p then .halted else s.status := by
  unfold State.retire; split <;> simp_all

theorem State.retire_pc (s : State) (p : Word) :
    (s.retire p).pc = if s.haltsAt p then s.pc else p := by
  unfold State.retire; split <;> simp_all

/-- The register file after the finish: kept by a halt, with slot 0 cleared otherwise (R131, R132). -/
theorem State.retire_regs (s : State) (p : Word) :
    (s.retire p).regs = if s.haltsAt p then s.regs else s.regs.set 0 0#16 := by
  unfold State.retire; split <;> simp_all

end Sys2Proof.Machine
end

