-- ==== Sys2Proof/Laws/Invariant.lean ====
section
/-! SUPPORT. The invariant of rows and caches: it holds of an empty cache, and an access keeps it (10_state.md R162). -/

namespace Sys2Proof.Machine

theorem Row.occupiedAt_empty (n w : Nat) : (Row.empty n).occupiedAt w = false := by
  simp [Row.empty, Row.occupiedAt, Way.empty, List.getElem?_replicate]
  split <;> rfl

theorem Row.empty_inv (n : Nat) : (Row.empty n).Inv n where
  ways_length := by simp [Row.empty]
  order_nodup := by simp [Row.empty]
  mem_order w := by simp [Row.occupiedAt_empty]; simp [Row.empty]
  tags_distinct := by simp [Row.occupiedAt_empty]
  occupied_initial := by simp [Row.occupiedAt_empty]

/-- A full row's victim is the back of its order, and exists. -/
theorem Row.Inv.victim_of_full {R : Row} {n : Nat} (h : R.Inv n) (hn : 0 < n)
    (full : ∀ w < R.ways.length, R.occupiedAt w = true) :
    R.order.getLast? = some R.victim ∧ R.victim < n := by
  have hne : R.order ≠ [] := by
    intro hc
    have := (h.mem_order 0).2 (full 0 (by rw [h.ways_length]; exact hn))
    simp [hc] at this
  have hl := List.getLast?_eq_some_getLast hne
  have hv : R.victim = R.order.getLast hne := by
    rcases R.victim_cases with ⟨h1, h2, -⟩ | ⟨-, h2⟩
    · rw [full _ h1] at h2; cases h2
    · rw [h2, List.getLastD_eq_getLast?, hl]; rfl
  refine ⟨hv ▸ hl, ?_⟩
  have := (h.mem_order _).1 (List.getLast_mem hne)
  rw [hv, ← h.ways_length]
  exact Row.lt_of_occupiedAt this

theorem Row.Inv.victim_lt {R : Row} {n : Nat} (h : R.Inv n) (hn : 0 < n) : R.victim < R.ways.length := by
  rcases R.victim_cases with ⟨h1, -, -⟩ | ⟨h1, -⟩
  · exact h1
  · rw [h.ways_length]; exact (h.victim_of_full hn h1).2

theorem Row.Inv.promote {R : Row} {n w : Nat} (h : R.Inv n) (hw : R.occupiedAt w = true) :
    (R.promote w).Inv n where
  ways_length := h.ways_length
  order_nodup := by
    simp only [Row.promote, List.nodup_cons]
    exact ⟨by simp [h.order_nodup.mem_erase_iff], h.order_nodup.erase _⟩
  mem_order v := by
    rw [Row.occupiedAt_promote]
    simp only [Row.promote, List.mem_cons, h.order_nodup.mem_erase_iff, h.mem_order]
    by_cases e : v = w <;> simp [e, hw]
  tags_distinct := h.tags_distinct
  occupied_initial := h.occupied_initial

theorem Row.Inv.fill {R : Row} {n t : Nat} (h : R.Inv n) (hn : 0 < n)
    (new : ∀ w, R.occupiedAt w = true → R.tagAt w ≠ t) : (R.fill R.victim t).Inv n := by
  have hv := h.victim_lt hn
  have ho := Row.occupiedAt_fill hv t
  have ht := Row.tagAt_fill hv t
  refine ⟨by simp [Row.fill, h.ways_length], ?_, fun w => ?_, fun w v h1 h2 h3 => ?_, fun w v hvw h1 => ?_⟩
  · simp only [Row.fill, List.nodup_cons]
    exact ⟨by simp [h.order_nodup.mem_erase_iff], h.order_nodup.erase _⟩
  · rw [ho]
    simp only [Row.fill, List.mem_cons, h.order_nodup.mem_erase_iff, h.mem_order]
    by_cases hw : w = R.victim <;> simp [hw]
  · rw [ho] at h1 h2
    rw [ht, ht] at h3
    split_ifs at h1 h2 h3 with hw hv'
    · rw [hw, hv']
    · exact absurd h3.symm (new _ h2)
    · exact absurd h3 (new _ h1)
    · exact h.tags_distinct _ _ h1 h2 h3
  · rw [ho]
    by_cases b : v = R.victim
    · simp [b]
    · rw [if_neg b]
      rcases R.victim_cases with ⟨-, -, before⟩ | ⟨full, -⟩
      · rw [ho] at h1
        by_cases a : w = R.victim
        · exact before v (by omega)
        · rw [if_neg a] at h1; exact h.occupied_initial w v hvw h1
      · have : w < R.ways.length := by simpa [Row.fill] using Row.lt_of_occupiedAt h1
        exact full v (by omega)

/-- An access keeps the row invariant. -/
theorem Row.Inv.access {R : Row} {n : Nat} (h : R.Inv n) (hn : 0 < n) (t : Nat) : (R.access t).1.Inv n := by
  rcases R.access_cases t with ⟨w, h1, -, h3⟩ | ⟨h1, h3⟩ <;> rw [h3]
  · exact h.promote h1
  · exact h.fill hn h1

/-- What a legal configuration says of its numbers (R151). -/
theorem CacheCfg.pos_of_wellFormed {c : CacheCfg} (h : c.wellFormed = true) :
    0 < c.rowCount ∧ 0 < c.assoc ∧ 0 < c.blockSize := by
  simp only [CacheCfg.wellFormed, CacheCfg.positive, CacheCfg.divisible, Bool.and_eq_true, decide_eq_true_eq,
    beq_iff_eq] at h
  obtain ⟨⟨⟨hs, ha⟩, hb⟩, hd⟩ := h
  exact ⟨Nat.div_pos (Nat.le_of_dvd hs (Nat.dvd_of_mod_eq_zero hd)) (Nat.mul_pos ha hb), ha, hb⟩

theorem Cache.rowAt_empty (c : CacheCfg) (r : Nat) : (Cache.empty c).rowAt r = Row.empty c.assoc := by
  simp [Cache.rowAt, Cache.empty, List.getElem?_replicate]
  split <;> rfl

theorem Cache.empty_inv {c : CacheCfg} (h : c.wellFormed = true) : (Cache.empty c).Inv where
  cfg_wellFormed := h
  rows_length := by simp [Cache.empty]
  rows_inv R hR := (List.mem_replicate.1 hR).2 ▸ Row.empty_inv c.assoc

theorem Cache.Inv.rowOf_lt {C : Cache} (h : C.Inv) (a : Addr) : C.cfg.rowOf a < C.rows.length := by
  rw [h.rows_length]
  exact Nat.mod_lt _ (CacheCfg.pos_of_wellFormed h.cfg_wellFormed).1

theorem Cache.Inv.rowAt {C : Cache} (h : C.Inv) (r : Nat) : (C.rowAt r).Inv C.cfg.assoc := by
  by_cases hr : r < C.rows.length
  · apply h.rows_inv; simp [Cache.rowAt, hr]
  · simp [Cache.rowAt, List.getElem?_eq_none (Nat.le_of_not_lt hr), Row.empty_inv]

/-- An access keeps the cache invariant. -/
theorem Cache.Inv.access {C : Cache} (h : C.Inv) (k : AccessKind) (a : Addr) : (C.access k a).cache.Inv := by
  refine ⟨h.cfg_wellFormed, by simp [Cache.access, h.rows_length], fun R hR => ?_⟩
  simp only [Cache.access] at hR
  rcases List.mem_or_eq_of_mem_set hR with hR | rfl
  · exact h.rows_inv R hR
  · exact (h.rowAt _).access (CacheCfg.pos_of_wellFormed h.cfg_wellFormed).2.1 _

end Sys2Proof.Machine
end

