-- ==== Sys2Proof/Laws/PerInstr.lean ====
section
/-! SUPPORT. The family EncodingRow: an instruction's word matches its own row of the opcode table (R320). -/

namespace Sys2Proof.Laws.EncodingRow

/-- The word of `i` matches the table's row that bears the mnemonic of `i`. -/
def Statement (i : Instr) : Prop :=
  ∃ r ∈ opcodeTable, r.mnemonic = i.mnemonic ∧ r.matchesWord (encode i) = true

theorem register_row (d a b : RegIdx) (f : FuncCode) : encodeR a b d f &&& 0xE00F#16 = f.setWidth 16 := by
  unfold encodeR
  ext k hk
  simp only [BitVec.getElem_and, BitVec.getElem_append, BitVec.getElem_setWidth]
  interval_cases k <;> simp

theorem immediate_row (op : Opcode) (a b : RegIdx) (imm : Imm7) :
    encodeI op a b imm &&& 0xE000#16 = op.setWidth 16 <<< 13 := by
  unfold encodeI
  ext k hk
  simp only [BitVec.getElem_and, BitVec.getElem_append, BitVec.getElem_shiftLeft, BitVec.getElem_setWidth]
  interval_cases k <;> simp

theorem jump_row (op : Opcode) (imm : Imm13) : encodeJ op imm &&& 0xE000#16 = op.setWidth 16 <<< 13 := by
  unfold encodeJ
  ext k hk
  simp only [BitVec.getElem_and, BitVec.getElem_append, BitVec.getElem_shiftLeft, BitVec.getElem_setWidth]
  interval_cases k <;> simp

theorem add (d a b : RegIdx) : Statement (.add d a b) :=
  ⟨⟨"add", 0x0000#16, 0xE00F#16⟩, by decide, rfl, beq_iff_eq.2 ((register_row ..).trans rfl)⟩

theorem sub (d a b : RegIdx) : Statement (.sub d a b) :=
  ⟨⟨"sub", 0x0001#16, 0xE00F#16⟩, by decide, rfl, beq_iff_eq.2 ((register_row ..).trans rfl)⟩

theorem or (d a b : RegIdx) : Statement (.or d a b) :=
  ⟨⟨"or", 0x0002#16, 0xE00F#16⟩, by decide, rfl, beq_iff_eq.2 ((register_row ..).trans rfl)⟩

theorem and (d a b : RegIdx) : Statement (.and d a b) :=
  ⟨⟨"and", 0x0003#16, 0xE00F#16⟩, by decide, rfl, beq_iff_eq.2 ((register_row ..).trans rfl)⟩

theorem slt (d a b : RegIdx) : Statement (.slt d a b) :=
  ⟨⟨"slt", 0x0004#16, 0xE00F#16⟩, by decide, rfl, beq_iff_eq.2 ((register_row ..).trans rfl)⟩

theorem jr (a : RegIdx) : Statement (.jr a) :=
  ⟨⟨"jr", 0x0008#16, 0xE00F#16⟩, by decide, rfl, beq_iff_eq.2 ((register_row ..).trans rfl)⟩

theorem addi (b a : RegIdx) (imm : Imm7) : Statement (.addi b a imm) :=
  ⟨⟨"addi", 0x2000#16, 0xE000#16⟩, by decide, rfl, beq_iff_eq.2 ((immediate_row ..).trans rfl)⟩

theorem j (imm : Imm13) : Statement (.j imm) :=
  ⟨⟨"j", 0x4000#16, 0xE000#16⟩, by decide, rfl, beq_iff_eq.2 ((jump_row ..).trans rfl)⟩

theorem jal (imm : Imm13) : Statement (.jal imm) :=
  ⟨⟨"jal", 0x6000#16, 0xE000#16⟩, by decide, rfl, beq_iff_eq.2 ((jump_row ..).trans rfl)⟩

theorem lw (b a : RegIdx) (imm : Imm7) : Statement (.lw b a imm) :=
  ⟨⟨"lw", 0x8000#16, 0xE000#16⟩, by decide, rfl, beq_iff_eq.2 ((immediate_row ..).trans rfl)⟩

theorem sw (b a : RegIdx) (imm : Imm7) : Statement (.sw b a imm) :=
  ⟨⟨"sw", 0xA000#16, 0xE000#16⟩, by decide, rfl, beq_iff_eq.2 ((immediate_row ..).trans rfl)⟩

theorem jeq (a b : RegIdx) (imm : Imm7) : Statement (.jeq a b imm) :=
  ⟨⟨"jeq", 0xC000#16, 0xE000#16⟩, by decide, rfl, beq_iff_eq.2 ((immediate_row ..).trans rfl)⟩

theorem slti (b a : RegIdx) (imm : Imm7) : Statement (.slti b a imm) :=
  ⟨⟨"slti", 0xE000#16, 0xE000#16⟩, by decide, rfl, beq_iff_eq.2 ((immediate_row ..).trans rfl)⟩

end Sys2Proof.Laws.EncodingRow
end

