-- ==== Sys2Proof/Laws/Step.lean ====
section
/-! SUPPORT. What a step can do, said once: the inversion of `step`, and the shape of every instruction. -/

namespace Sys2Proof.Machine

/-- A step that answers a next state was taken by a Running machine: it executed the instruction fetched, or applied
the rule for a `Reserved` word. -/
theorem step_cases {s t : State} (h : step s = .next t) :
    s.status = .running ∧
    ((∃ i, decode s.fetch = .instr i ∧ exec i s = .next t) ∨
     (∃ f, decode s.fetch = .reserved f ∧ t = s.execReserved s.fetch)) := by
  unfold step at h
  split at h
  · rename_i hr
    refine ⟨hr, ?_⟩
    split at h
    · rename_i i hi; exact .inl ⟨i, hi, h⟩
    · rename_i f hf; injection h with h; exact .inr ⟨f, hf, h.symm⟩
  · cases h
  · cases h

theorem step_of_instr {s : State} {i : Instr} (hr : s.status = .running) (hd : decode s.fetch = .instr i) :
    step s = exec i s := by
  simp [step, hr, hd]

theorem step_of_reserved {s : State} {f : FuncCode} (hr : s.status = .running)
    (hd : decode s.fetch = .reserved f) : step s = .next (s.execReserved s.fetch) := by
  simp [step, hr, hd]

/-- An instruction's own effects, before its finish: one register write, one memory write, one cache access and its
load or store, or none (10_state.md R103). -/
def effects : Instr → State → State
  | .add d a b, s => s.writeReg d (s.readReg a + s.readReg b)
  | .sub d a b, s => s.writeReg d (s.readReg a - s.readReg b)
  | .or d a b, s => s.writeReg d (s.readReg a ||| s.readReg b)
  | .and d a b, s => s.writeReg d (s.readReg a &&& s.readReg b)
  | .slt d a b, s => s.writeReg d (s.setLess (s.readReg a) (s.readReg b))
  | .jr _, s => s
  | .addi d a imm, s => s.writeReg d (s.readReg a + sext16 imm)
  | .j _, s => s
  | .jal _, s => s.writeReg linkReg s.nextPc
  | .lw d a imm, s =>
    (s.cacheAccess (s.request .load a imm)).writeReg d
      ((s.cacheAccess (s.request .load a imm)).memRead (s.effAddr a imm).toNat)
  | .sw b a imm, s =>
    (s.cacheAccess (s.request .store a imm)).memWrite (s.effAddr a imm).toNat (s.readReg b)
  | .jeq _ _ _, s => s
  | .slti d a imm, s => s.writeReg d (s.setLess (s.readReg a) (sext16 imm))

/-- The `new_pc` of an instruction (R112). -/
def newPc : Instr → State → Word
  | .jr a, s => s.readReg a
  | .j imm, _ => zext16 imm
  | .jal imm, _ => zext16 imm
  | .jeq a b imm, s => if s.readReg a = s.readReg b then s.branchTarget imm else s.nextPc
  | _, s => s.nextPc

/-- R130: every instruction performs its effects and finishes with its `new_pc`. -/
theorem exec_eq (i : Instr) (s : State) : exec i s = .next ((effects i s).retire (newPc i s)) := by
  cases i <;> rfl

/-- No effect moves the pc, counts a step, or changes the run status or the parameters. -/
theorem effects_frame (i : Instr) (s : State) :
    (effects i s).pc = s.pc ∧ (effects i s).steps = s.steps ∧ (effects i s).status = s.status ∧
    (effects i s).params = s.params := by
  cases i <;> simp [effects]

end Sys2Proof.Machine
end

