-- ==== Sys2Proof/Laws/Run.lean ====
section
/-! SUPPORT. Runs of the machine: the equations of `Host.Core.run` for this machine's step. -/

namespace Sys2Proof.Machine

theorem run_zero (s : State) : Sys2Proof.core.run 0 s = .next s := rfl

theorem run_of_step {s u : State} (h : step s = .next u) (n : Nat) :
    Sys2Proof.core.run (n + 1) s = Sys2Proof.core.run n u := by
  have h : Sys2Proof.core.step s = .next u := h
  exact (Host.Core.run.eq_2 Sys2Proof.core s n).trans (by rw [h])

/-- A run of `n + 1` steps that answers a next state begins with a step that answers one. -/
theorem run_succ {n : Nat} {s t : State} (h : Sys2Proof.core.run (n + 1) s = .next t) :
    ∃ u, step s = .next u ∧ Sys2Proof.core.run n u = .next t := by
  have e := (Host.Core.run.eq_2 Sys2Proof.core s n).symm.trans h
  cases hs : Sys2Proof.core.step s with
  | next u => rw [hs] at e; exact ⟨u, hs, e⟩
  | fault r => rw [hs] at e; cases e
  | refused r => rw [hs] at e; cases e

end Sys2Proof.Machine
end

