-- ==== Sys2Proof/Tests/Slice0.lean ====
section
/-! SUPPORT. Tests on fixed values, each expected result from spec/95_test_vectors.md (the vector's name in the
comment) or from the rule named; smoke tests of the well-formedness checks; and, for each obligation with hypotheses,
a witness that meets them. -/

namespace Sys2Proof.Tests
open Sys2Proof.Machine

/-- The words of a register file, x0 first. -/
abbrev Regs := Vector Word 8

def zeroRegs : Regs := Vector.replicate 8 0#16

/-- x1 and x2 as given, every other register 0. -/
def x12 (a b : Word) : Regs := #v[0#16, a, b, 0#16, 0#16, 0#16, 0#16, 0#16]

/-- A Running machine with L1 = (2,1,1) and no L2 (the configuration of the LS vectors), the word `w` in the cell its
pc fetches. -/
def placed (pc w : Word) (regs : Regs) (cells : List Word := []) : State :=
  { State.booted Config.params ⟨2, 1, 1⟩ none cells with
    pc := pc, regs := regs, mem := (Memory.ofImage cells).write pc.toNat w }

/-- The next state of a step, if there is one. -/
def stepped (s : State) : Option State :=
  match step s with
  | .next t => some t
  | _ => none

/-- Register `r` and the pc after one step of `placed`. -/
def regPc (s : State) (r : RegIdx) : Option (Word × Word) := (stepped s).map fun t => (t.readReg r, t.pc)

/-- The run status and the pc after one step. -/
def statusPc (s : State) : Option (Status × Word) := (stepped s).map fun t => (t.status, t.pc)

/-! ### Decoding words written out from the encodings (R306, R320), each under its row's mask -/

theorem test_decode_add : 0b000_001_010_011_0000#16 &&& 0xE00F#16 = 0x0000#16 ∧ decode 0b000_001_010_011_0000#16 = .instr (.add 3 1 2) := by decide
theorem test_decode_sub : 0b000_001_010_011_0001#16 &&& 0xE00F#16 = 0x0001#16 ∧ decode 0b000_001_010_011_0001#16 = .instr (.sub 3 1 2) := by decide
theorem test_decode_or : 0b000_001_010_011_0010#16 &&& 0xE00F#16 = 0x0002#16 ∧ decode 0b000_001_010_011_0010#16 = .instr (.or 3 1 2) := by decide
theorem test_decode_and : 0b000_001_010_011_0011#16 &&& 0xE00F#16 = 0x0003#16 ∧ decode 0b000_001_010_011_0011#16 = .instr (.and 3 1 2) := by decide
theorem test_decode_slt : 0b000_001_010_011_0100#16 &&& 0xE00F#16 = 0x0004#16 ∧ decode 0b000_001_010_011_0100#16 = .instr (.slt 3 1 2) := by decide
theorem test_decode_jr : 0b000_111_111_111_1000#16 &&& 0xE00F#16 = 0x0008#16 ∧ decode 0b000_111_111_111_1000#16 = .instr (.jr 7) := by decide
theorem test_decode_addi : 0b001_001_010_1111111#16 &&& 0xE000#16 = 0x2000#16 ∧ decode 0b001_001_010_1111111#16 = .instr (.addi 2 1 0x7F#7) := by decide
theorem test_decode_j : 0b010_0000001100100#16 &&& 0xE000#16 = 0x4000#16 ∧ decode 0b010_0000001100100#16 = .instr (.j 100#13) := by decide
theorem test_decode_jal : 0b011_0000001100100#16 &&& 0xE000#16 = 0x6000#16 ∧ decode 0b011_0000001100100#16 = .instr (.jal 100#13) := by decide
theorem test_decode_lw : 0b100_001_010_0000101#16 &&& 0xE000#16 = 0x8000#16 ∧ decode 0b100_001_010_0000101#16 = .instr (.lw 2 1 5#7) := by decide
theorem test_decode_sw : 0b101_001_010_0000101#16 &&& 0xE000#16 = 0xA000#16 ∧ decode 0b101_001_010_0000101#16 = .instr (.sw 2 1 5#7) := by decide
theorem test_decode_jeq : 0b110_001_010_0000011#16 &&& 0xE000#16 = 0xC000#16 ∧ decode 0b110_001_010_0000011#16 = .instr (.jeq 1 2 3#7) := by decide
theorem test_decode_slti : 0b111_001_010_1111111#16 &&& 0xE000#16 = 0xE000#16 ∧ decode 0b111_001_010_1111111#16 = .instr (.slti 2 1 0x7F#7) := by decide
theorem test_decode_reserved : decode 0x0535#16 = .reserved 5#4 ∧ decode 0x0009#16 = .reserved 9#4 := by decide
theorem test_encode_words : encode (.add 3 1 2) = 0x0530#16 ∧ encode (.addi 2 1 0x7F#7) = 0x257F#16 ∧
    encode (.jr 7) = 0x1C08#16 ∧ encode (.jal 100#13) = 0x6064#16 := by decide
theorem test_decodeTableWord : decodeTableWord 16 0x8505 = some (.lw 2 1 5#7) ∧ decodeTableWord 16 0x000F = none := by
  decide

/-! ### Well-formedness (R7, R151, R711; an assembler operand out of its field's range, R310, R311, R100) -/

theorem test_wellFormed_accepts : (CacheCfg.mk 6 1 2).wellFormed = true := by decide
theorem test_wellFormed_refuses_zero_size : (CacheCfg.mk 0 1 1).wellFormed = false := by decide
theorem test_wellFormed_refuses_zero_assoc : (CacheCfg.mk 4 0 2).wellFormed = false := by decide
theorem test_wellFormed_refuses_zero_blockSize : (CacheCfg.mk 4 1 0).wellFormed = false := by decide
/-- CF-3, CF-4. -/
theorem test_wellFormed_refuses_indivisible :
    (CacheCfg.mk 5 2 2).wellFormed = false ∧ (CacheCfg.mk 8 3 1).wellFormed = false := by decide
theorem test_asm_refuses_register_8 : (AsmItem.add 8 1 2).word [] 0 = none := by decide
theorem test_asm_refuses_wide_imm7 :
    (AsmItem.addi 1 0 (.num 64)).word [] 0 = none ∧ (AsmItem.addi 1 0 (.num (-65))).word [] 0 = none := by decide
theorem test_asm_refuses_wide_imm13 :
    (AsmItem.j (.num 8192)).word [] 0 = none ∧ (AsmItem.j (.num (-1))).word [] 0 = none := by decide
theorem test_asm_refuses_wide_fill :
    (AsmItem.fill (.num 65536)).word [] 0 = none ∧ (AsmItem.fill (.num (-1))).word [] 0 = none := by decide
theorem test_asm_refuses_unknown_label : (AsmItem.j (.label "x")).word [] 0 = none := by decide
/-- P1's loop: labels before and after their uses. -/
theorem test_assemble_labels :
    assemble [⟨["loop"], .lw 4 (.num 0) 1⟩, ⟨[], .jeq 2 0 (.label "done")⟩, ⟨[], .j (.label "loop")⟩,
      ⟨["done"], .halt⟩] = some [0x8600#16, 0xC801#16, 0x4000#16, 0x4003#16] := by decide

/-! ### One step of each instruction -/

/-- RR-2. -/
theorem test_add_wraps : regPc (placed 0 0x0530 (x12 0xFFFF 2)) 3 = some (0x0001#16, 1#16) := by decide
/-- RR-4. -/
theorem test_add_same_register : regPc (placed 0 0x0490 (x12 0x8000 0)) 1 = some (0x0000#16, 1#16) := by decide
/-- RR-5. -/
theorem test_sub_borrows : regPc (placed 0 0x0531 (x12 5 7)) 3 = some (0xFFFE#16, 1#16) := by decide
/-- RR-7. -/
theorem test_or : regPc (placed 0 0x0532 (x12 0x00F0 0x0F0F)) 3 = some (0x0FFF#16, 1#16) := by decide
/-- RR-8. -/
theorem test_and : regPc (placed 0 0x0533 (x12 0x00F0 0x0F0F)) 3 = some (0x0000#16, 1#16) := by decide
/-- RR-13, unsigned. -/
theorem test_slt_unsigned : regPc (placed 0 0x0534 (x12 0xFFFF 1)) 3 = some (0#16, 1#16) := by decide
/-- RR-13, `SLT_SIGNED = true`. -/
theorem test_slt_signed :
    regPc { placed 0 0x0534 (x12 0xFFFF 1) with params := ⟨true, .fault⟩ } 3 = some (1#16, 1#16) := by decide
/-- RR-16. -/
theorem test_jr_zero_halts : statusPc (placed 0 0x0008 zeroRegs) = some (.halted, 0#16) := by decide
/-- RR-12: the unmasked self-jump does not halt. -/
theorem test_jr_alias_runs : statusPc (placed 0x2005 0x0408 (x12 0x2005 0)) = some (.running, 0x2005#16) := by decide
/-- IA-4. -/
theorem test_addi_wraps : regPc (placed 0 0x2501 (x12 0xFFFF 0)) 2 = some (0x0000#16, 1#16) := by decide
/-- IA-5, SRC-1: the slot of register 0 itself is cleared. -/
theorem test_addi_to_zero :
    (stepped (placed 0 0x2007 zeroRegs)).map (fun t => (t.regs.get 0, t.pc)) = some (0#16, 1#16) := by decide
/-- IA-7. -/
theorem test_slti_negative_is_large : regPc (placed 0 0xE57F (x12 5 0)) 2 = some (1#16, 1#16) := by decide
/-- IA-7, `SLT_SIGNED = true`. -/
theorem test_slti_signed :
    regPc { placed 0 0xE57F (x12 5 0) with params := ⟨true, .fault⟩ } 2 = some (0#16, 1#16) := by decide
/-- JB-2. -/
theorem test_j_last_cell : statusPc (placed 0 0x5FFF zeroRegs) = some (.running, 8191#16) := by decide
/-- JB-11: the halt test masks the pc. -/
theorem test_j_halts_above_8191 : statusPc (placed 0x2005 0x4005 zeroRegs) = some (.halted, 0x2005#16) := by decide
/-- JB-4. -/
theorem test_jal_links : regPc (placed 10 0x6064 zeroRegs) 7 = some (11#16, 100#16) := by decide
/-- JB-5: the link is kept when the jal halts. -/
theorem test_jal_halts_linked : regPc (placed 0 0x6000 zeroRegs) 7 = some (1#16, 0#16) := by decide
/-- JB-9. -/
theorem test_jeq_taken_wraps : statusPc (placed 10 0xC040 zeroRegs) = some (.running, 0xFFCB#16) := by decide
/-- JB-7. -/
theorem test_jeq_not_taken : statusPc (placed 10 0xC503 (x12 4 5)) = some (.running, 11#16) := by decide
/-- LS-3: the address wraps below 0; LS-3's record. -/
theorem test_lw_wraps_below_zero :
    (stepped { placed 0 0x857D (x12 2 0) with mem := [(0, 0x857D#16), (8191, 0x7777#16)] }).map
      (fun t => (t.readReg 2, t.out.getLast?)) =
    some (0x7777#16, some (.access ⟨.l1, .miss, 0#16, 8191#13, 1⟩)) := by decide
/-- LS-4: the destination is the base. -/
theorem test_lw_into_its_base :
    regPc { placed 0 0x8480 (x12 10 0) with mem := [(0, 0x8480#16), (10, 0x5555#16)] } 1 =
      some (0x5555#16, 1#16) := by decide
/-- LS-5. -/
theorem test_sw_stores :
    (stepped (placed 0 0xA505 (x12 10 0xBEEF))).map (fun t => (t.mem.read 15, t.pc, t.out.getLast?)) =
      some (0xBEEF#16, 1#16, some (.access ⟨.l1, .miss, 0#16, 15#13, 1⟩)) := by decide
/-- R560, R213: a store into the next cell keeps the canonical form when it stores the blank word. -/
theorem test_sw_of_zero_unlists :
    (stepped { placed 0 0xA001 zeroRegs with mem := [(0, 0xA001#16), (1, 0x4001#16)] }).map (·.mem) =
      some [(0, 0xA001#16)] := by decide

/-! ### Status, fault, reset and boot -/

/-- EX-1. -/
theorem test_reserved_faults :
    (stepped (placed 0 0x0535 (x12 1 2))).map (fun t => (t.status, t.pc, t.steps, t.readReg 1)) =
      some (.faulted (.illegalInstruction 0#16 0x0535#16), 0#16, 0, 1#16) := by decide
/-- EX-2. -/
theorem test_reserved_nop :
    (stepped { placed 0 0x0535 (x12 1 2) with params := ⟨false, .nop⟩ }).map (fun t => (t.status, t.pc, t.steps)) =
      some (.running, 1#16, 1) := by decide
/-- R134, R140. -/
theorem test_stopped_machines :
    step { State.reset with status := .halted } = .fault .machineHalted ∧
    step { State.reset with status := .faulted (.illegalInstruction 0 5) } =
      .fault (.machineFaulted (.illegalInstruction 0 5)) := ⟨rfl, rfl⟩
/-- EX-5, R180: the first step from reset with nothing loaded. -/
theorem test_reset_runs_add : regPc State.reset 0 = some (0#16, 1#16) := by decide
/-- SRC-7: the start-up records. -/
theorem test_reset_records :
    State.reset.out = [.config ⟨.l1, 4, 1, 2, 2⟩, .config ⟨.l2, 8, 4, 2, 1⟩] := by decide
theorem test_withFetchWord :
    regPc (State.reset.withFetchWord 16 0x213F) 2 = some (0x003F#16, 1#16) := by decide
/-- CF-5, CF-7, CF-3. -/
theorem test_config_errors :
    (checkConfig "4,1".toList).toOption = none ∧ (checkConfig "0,1,1".toList).toOption = none ∧
    (checkConfig "5,2,2".toList).toOption = none := by decide
/-- R712: the first digit is bit 15; text after the semicolon is allowed. -/
theorem test_image_line :
    parseImageLine "ram[12] = 16'b1000000000000001; // data".toList = some (12, 0x8001#16) := by decide
/-- EX-3. -/
theorem test_image_out_of_sequence :
    boot Config.params "4,1,2".toList ["ram[1] = 16'b0100000000000001;".toList] =
      .fatal (.loadFatal 0 "ram[1] = 16'b0100000000000001;".toList .outOfSequence) := by decide
/-- SRC-9. -/
theorem test_record_text :
    (AccessRecord.mk .l1 .hit 3#16 21#13 0).text = "L1 HIT  pc:    3  addr:   21  row:   0".toList := by decide

/-! ### The cache algorithm -/

/-- The rows of a cache after loads from the addresses given. -/
def rowsAfter (c : CacheCfg) (addrs : List Addr) : List Row :=
  ((Cache.empty c).accessAll (addrs.map fun a => (.load, a))).rows

/-- CA-5, SRC-3. -/
theorem test_lru_four_ways :
    rowsAfter ⟨4, 4, 1⟩ [0, 1, 2, 3, 0, 4, 1, 0] =
      [⟨[⟨true, 0⟩, ⟨true, 4⟩, ⟨true, 1⟩, ⟨true, 3⟩], [0, 2, 1, 3]⟩] := by decide
/-- CA-6: three rows, no power of two. -/
theorem test_lru_three_rows :
    (rowsAfter ⟨12, 2, 2⟩ [0, 6, 12, 7, 1]).head? = some ⟨[⟨true, 0⟩, ⟨true, 1⟩], [0, 1]⟩ := by decide
/-- SRC-7, third access: address 4 misses in both levels. -/
theorem test_two_levels :
    (((State.reset.cacheAccess ⟨.load, 0, 3⟩).cacheAccess ⟨.load, 1, 3⟩).cacheAccess ⟨.load, 4, 3⟩).out.drop 2 =
      [.access ⟨.l1, .miss, 3, 0, 0⟩, .access ⟨.l2, .miss, 3, 0, 0⟩, .access ⟨.l1, .hit, 3, 1, 0⟩,
       .access ⟨.l1, .miss, 3, 4, 0⟩, .access ⟨.l2, .miss, 3, 4, 0⟩] := by decide

/-! ### Witnesses: each obligation's hypotheses are met by a concrete state and operands -/

theorem witness_EncodeOfDecodeKeepsEveryUsedBit :
    decode 0x1FF8#16 = .instr (.jr 7) ∧ encode (.jr 7) = 0x1FF8#16 &&& 0xFC0F#16 ∧
    decode 0x8505#16 = .instr (.lw 2 1 5#7) ∧ encode (.lw 2 1 5#7) = 0x8505#16 := by decide

theorem witness_DecoderFollowsOpcodeTable :
    decode 0xFFFF#16 = .instr (.slti 7 7 0x7F#7) ∧ decode 0x0005#16 = .reserved 5#4 := by decide

theorem witness_StepRunsTheDecodedInstruction :
    (placed 0xFFFF 0x0530 zeroRegs).status = .running ∧
    decode ((placed 0xFFFF 0x0530 zeroRegs).mem.read ((placed 0xFFFF 0x0530 zeroRegs).pc.setWidth 13).toNat) =
      .instr (.add 3 1 2) := by decide

/-- The two clauses at the pc 0x2005, whose cell is 5: the self-jump to 5, and 0x2005 itself, which is none. -/
theorem witness_FinishHaltsOnSelfJumpElseAdvances :
    (5#16 = ((placed 0x2005 0 zeroRegs).pc.setWidth 13).setWidth 16) ∧
    (0x2005#16 ≠ ((placed 0x2005 0 zeroRegs).pc.setWidth 13).setWidth 16) := by decide

/-- The two clauses of `Transferred` for a j at pc 0x2005, and the two of jeq at pc 10. -/
theorem witness_Transferred_and_JeqBranchesIfEqual :
    (5#13 : Imm13).toNat = (placed 0x2005 0 zeroRegs).pc.toNat % 8192 ∧
    (6#13 : Imm13).toNat ≠ (placed 0x2005 0 zeroRegs).pc.toNat % 8192 ∧
    (placed 10 0 (x12 4 4)).readReg 1 = (placed 10 0 (x12 4 4)).readReg 2 ∧
    (placed 10 0 (x12 4 5)).readReg 1 ≠ (placed 10 0 (x12 4 5)).readReg 2 := by decide

theorem witness_OnlySelfTransfersHalt :
    (placed 10 0xC07F zeroRegs).status = .running ∧
    ∃ t, exec (.jeq 0 0 0x7F#7) (placed 10 0xC07F zeroRegs) = .next t ∧ t.status = .halted :=
  ⟨rfl, _, rfl, by decide⟩

theorem witness_StepsExactlyWhileRunning :
    ({ State.reset with status := .halted } : State).status = .halted ∧
    ({ State.reset with status := .faulted (.illegalInstruction 0 5) } : State).status =
      .faulted (.illegalInstruction 0 5) ∧ State.reset.status = .running := ⟨rfl, rfl, rfl⟩

theorem witness_ReservedWordFaultsOrGoesOn :
    (placed 0xFFFF 0x0535 zeroRegs).status = .running ∧
    decode ((placed 0xFFFF 0x0535 zeroRegs).mem.read ((placed 0xFFFF 0x0535 zeroRegs).pc.setWidth 13).toNat) =
      .reserved 5#4 ∧
    (placed 0xFFFF 0x0535 zeroRegs).params.onReserved = .fault ∧
    ({ placed 0xFFFF 0x0535 zeroRegs with params := ⟨false, .nop⟩ } : State).params.onReserved = .nop := by decide

theorem witness_FaultedStateIsTheStateBefore :
    ∃ t, step (placed 0 0x0535 zeroRegs) = .next t ∧ t.status = .faulted (.illegalInstruction 0 0x0535) :=
  ⟨_, rfl, by decide⟩

/-- Both clauses: the fault, and a halting step. -/
theorem witness_EveryExecutedInstructionCountsOneStep :
    (∃ t, step (placed 0 0x0535 zeroRegs) = .next t ∧ ∃ why, t.status = .faulted why) ∧
    ∃ t, step (placed 0 0x4000 zeroRegs) = .next t ∧ ∀ why, t.status ≠ .faulted why :=
  ⟨⟨_, rfl, .illegalInstruction 0 0x0535, by decide⟩, _, rfl, fun _ h => Status.noConfusion h⟩

/-- A step of a sw and a step of an add: the premise of NoStepChangesTheConfiguration, OnlyStoresChangeMemory,
OneRequestPerLoadOrStoreAndNoOther (both cases of each) and OccupiedWaysStayOccupied. -/
theorem witness_steps_with_and_without_a_store :
    (∃ t, step (placed 0 0xA505 (x12 10 7)) = .next t) ∧
    (placed 0 0xA505 (x12 10 7)).pendingStore = some (15#13, 7#16) ∧
    (placed 0 0xA505 (x12 10 7)).pendingRequest = some ⟨.store, 15#13, 0#16⟩ ∧
    (∃ t, step (placed 0 0x0530 zeroRegs) = .next t) ∧
    (placed 0 0x0530 zeroRegs).pendingStore = none ∧ (placed 0 0x0530 zeroRegs).pendingRequest = none :=
  ⟨⟨_, rfl⟩, by decide, by decide, ⟨_, rfl⟩, by decide, by decide⟩

/-- An L1 way and an L2 way that are occupied, in the state after a load from reset. -/
theorem witness_OccupiedWaysStayOccupied :
    ((State.reset.cacheAccess ⟨.load, 0, 0⟩).l1.rowAt 0).occupiedAt 0 = true ∧
    ((State.reset.cacheAccess ⟨.load, 0, 0⟩).l2.map fun c => (c.rowAt 0).occupiedAt 0) = some true := by decide

/-- The program of the LS-8 shape: sw $2,5($1), add $0,$0,$0, lw $3,5($1). -/
def storeAddLoad : State :=
  { placed 0 0xA505 (x12 10 0xBEEF) with mem := [(0, 0xA505#16), (2, 0x8585#16)] }

/-- After the sw and one add, the lw of the same cell is next. -/
theorem witness_LoadReturnsTheMostRecentStore :
    ∃ s' t, storeAddLoad.pendingStore = some (15#13, 0xBEEF#16) ∧ step storeAddLoad = .next s' ∧
      Sys2Proof.core.run 1 s' = .next t ∧
      (∀ k u, k < 1 → Sys2Proof.core.run k s' = .next u → ∀ q, u.pendingStore = some q → q.1 ≠ 15#13) ∧
      t.effAddr 1 5#7 = 15#13 := by
  refine ⟨_, _, by decide, rfl, run_of_step rfl 0, fun k u hk hu q hq => ?_, by decide⟩
  obtain rfl : k = 0 := by omega
  injection hu with hu
  subst hu
  cases hq

theorem witness_StoreIsSeenByTheNextFetch :
    (placed 0 0xA481 (x12 0 7)).status = .running ∧
    decode (placed 0 0xA481 (x12 0 7)).fetch = .instr (.sw 1 1 1#7) ∧
    (placed 0 0xA481 (x12 0 7)).effAddr 1 1#7 = ((placed 0 0xA481 (x12 0 7)).pc + 1#16).setWidth 13 := by decide

theorem witness_CanonicalMemoriesThatReadAlikeAreEqual :
    Memory.wf [(3, 7#16), (8191, 1#16)] ∧
    ∀ a, Memory.read [(3, 7#16), (8191, 1#16)] a = Memory.read [(3, 7#16), (8191, 1#16)] a :=
  ⟨by decide, fun _ => rfl⟩

theorem witness_AddressDecomposition : (CacheCfg.mk 6 1 2).wellFormed = true := by decide

/-- CA-6's configuration, its row 0 full: rows of two ways, three rows. -/
def fullRow : Cache := (Cache.empty ⟨12, 2, 2⟩).accessAll [(.load, 0), (.load, 6)]

theorem fullRow_inv : fullRow.Inv := ((Cache.empty_inv (by decide)).access _ _).access _ _

theorem witness_HitExactlyWhenAnOccupiedWayHoldsTheTag :
    fullRow.Inv ∧ (fullRow.rowAt (fullRow.cfg.rowOf 7)).occupiedAt 1 = true ∧
    (fullRow.rowAt (fullRow.cfg.rowOf 7)).tagAt 1 = fullRow.cfg.tagOf 7 := ⟨fullRow_inv, by decide, by decide⟩

theorem witness_HitPromotesTheWay :
    fullRow.Inv ∧ (fullRow.rowAt (fullRow.cfg.rowOf 1)).occupiedAt 0 = true ∧
    (fullRow.rowAt (fullRow.cfg.rowOf 1)).tagAt 0 = fullRow.cfg.tagOf 1 := ⟨fullRow_inv, by decide, by decide⟩

/-- No way of the row holds the tag: in the full row 0, and in the empty row 2. -/
theorem witness_MissFillsTheLowestFreeOrTheLeastRecentWay :
    fullRow.Inv ∧ (fullRow.rowAt (fullRow.cfg.rowOf 12)).lookup (fullRow.cfg.tagOf 12) = none ∧
    (∀ w < 2, (fullRow.rowAt (fullRow.cfg.rowOf 12)).occupiedAt w = true) ∧
    (fullRow.rowAt (fullRow.cfg.rowOf 4)).lookup (fullRow.cfg.tagOf 4) = none ∧
    (fullRow.rowAt (fullRow.cfg.rowOf 4)).occupiedAt 0 = false :=
  ⟨fullRow_inv, by decide, by decide, by decide, by decide⟩

/-- Both clauses: a MISS in the full row 0 and a MISS in the empty row 2. -/
theorem witness_MissEvictsExactlyWhenTheRowIsFull :
    fullRow.Inv ∧ (fullRow.access .store 12).status = .miss ∧
    (∀ w < fullRow.cfg.assoc, (fullRow.rowAt (fullRow.cfg.rowOf 12)).occupiedAt w = true) ∧
    (fullRow.access .load 4).status = .miss ∧
    (∃ w < fullRow.cfg.assoc, (fullRow.rowAt (fullRow.cfg.rowOf 4)).occupiedAt w = false) :=
  ⟨fullRow_inv, by decide, by decide, by decide, 0, by decide, by decide⟩

/-- The three clauses: an L1 HIT, an L1 MISS without L2, an L1 MISS with L2. -/
theorem witness_L2IsQueriedExactlyOnL1Miss :
    ((State.reset.cacheAccess ⟨.load, 0, 0⟩).l1.access .load 1).status = .hit ∧
    ((placed 0 0 zeroRegs).l1.access .load 1).status = .miss ∧ (placed 0 0 zeroRegs).l2 = none ∧
    (State.reset.l1.access .store 4).status = .miss ∧ State.reset.l2 = some (Cache.empty ⟨8, 4, 2⟩) := by decide

/-- Two rows that differ in the tag of an unoccupied way. -/
theorem witness_TagOfUnoccupiedWayIsUnobservable :
    Row.SameOccupied ⟨[⟨true, 3⟩, ⟨false, 0⟩], [0]⟩ ⟨[⟨true, 3⟩, ⟨false, 9⟩], [0]⟩ := by
  refine ⟨rfl, rfl, fun w => ?_, fun w => ?_⟩
  all_goals rcases w with _ | _ | w <;> simp [Row.occupiedAt, Row.tagAt, Way.empty]

theorem witness_RepeatedAccessHits :
    fullRow.Inv ∧ (12#13 : Addr).toNat / fullRow.cfg.blockSize = (13#13 : Addr).toNat / fullRow.cfg.blockSize ∧
    ∀ q ∈ [(AccessKind.store, 2#13), (AccessKind.load, 4#13)], fullRow.cfg.rowOf q.2 ≠ fullRow.cfg.rowOf 12 :=
  ⟨fullRow_inv, by decide, by decide⟩

theorem witness_RowsHoldTheMostRecentlyUsedTags :
    (CacheCfg.mk 12 2 2).wellFormed = true ∧ 2 < (CacheCfg.mk 12 2 2).rowCount := by decide

/-- Two machines with different cache configurations, and a run of one step of the first. -/
theorem witness_CachesNeverInfluenceTheProgram :
    SameProgramView State.reset (State.resetOf Config.params ⟨2, 1, 1⟩ none) ∧
    ∃ t, Sys2Proof.core.run 1 State.reset = .next t :=
  ⟨⟨rfl, rfl, rfl, rfl, rfl, rfl⟩, _, run_of_step rfl 0⟩

theorem witness_ResetMeetsTheInvariant :
    (CacheCfg.mk 4 1 2).wellFormed = true ∧ ∀ c, some (CacheCfg.mk 8 4 2) = some c → c.wellFormed = true := by
  refine ⟨by decide, fun c h => ?_⟩
  cases h
  decide

/-- A state not reached from reset, in which the invariant holds, and a step from it. -/
theorem witness_EveryStepKeepsTheInvariant :
    (placed 0x2005 0xA505 (x12 10 7)).Inv ∧ ∃ t, step (placed 0x2005 0xA505 (x12 10 7)) = .next t :=
  ⟨⟨rfl, by decide, Cache.empty_inv (by decide), fun c h => by cases h⟩, _, rfl⟩

/-- The clauses: CF-1, CF-2 and CF-5. -/
theorem witness_ConfigurationCheck :
    (splitCommas "4,1,2".toList).map positiveInteger = [some 4, some 1, some 2] ∧
    (splitCommas "4,1,2,8,4,2".toList).map positiveInteger = [some 4, some 1, some 2, some 8, some 4, some 2] ∧
    (splitCommas "4,1".toList).length = 2 := by decide

theorem witness_ImageCheck :
    ["ram[0] = 16'b0100000000000000;".toList].map parseImageLine =
      ([0x4000#16].zipIdx.map fun p => some (p.2, p.1)) := by decide

/-- The three clauses: CF-3; an accepted configuration with EX-3's image; an accepted configuration and image. -/
theorem witness_BootOrderAndLoadedMachine :
    checkConfig "5,2,2".toList = .error (.notDivisible .l1) ∧
    checkConfig "2,1,1".toList = .ok (⟨2, 1, 1⟩, none) ∧
    (∃ why, loadImage ["ram[1] = 16'b0100000000000001;".toList] = .error why) ∧
    loadImage ["ram[0] = 16'b0100000000000000;".toList] = .ok [0x4000#16] :=
  ⟨by rfl, by rfl, ⟨_, by rfl⟩, by rfl⟩

/-- Each clause at a bound of its operand, numbers and labels: imm7 at −64, jeq's offset at 63, imm13 at 8191, halt at
the last cell, a data word at 65535. -/
theorem witness_AssembledWordDecodesToTheItem :
    (AsmValue.num (-64)).StandsFor [] (-64) ∧
    ((AsmValue.label "far").StandsFor [("far", 71)] 71 ∧ (71 : Int) - ((7 : Nat) + 1) = 63) ∧
    (AsmValue.label "last").StandsFor [("last", 8191)] 8191 ∧
    (AsmItem.fill (.num 65535)).word [] 0 = some 0xFFFF#16 ∧ AsmItem.halt.word [] 8191 = some 0x5FFF#16 :=
  ⟨.inl rfl, ⟨.inr ⟨"far", 71, rfl, by decide, rfl⟩, by decide⟩, .inr ⟨"last", 8191, rfl, by decide, rfl⟩, by decide,
    by decide⟩

/-- A label on the second line, used on the first (R340). -/
theorem witness_AssembledProgramIsItsLinesInOrder :
    assemble [⟨[], .j (.label "end")⟩, ⟨["end"], .halt⟩] = some [0x4001#16, 0x4001#16] ∧
    ([⟨[], .j (.label "end")⟩, ⟨["end"], .halt⟩] : List AsmLine)[1]? = some ⟨["end"], .halt⟩ ∧
    ∀ j < 1, ∀ l', ([⟨[], .j (.label "end")⟩, ⟨["end"], .halt⟩] : List AsmLine)[j]? = some l' → "end" ∉ l'.labels := by
  refine ⟨by decide, rfl, fun j hj l' h => ?_⟩
  obtain rfl : j = 0 := by omega
  cases h
  decide

/-- At the last cell. -/
theorem witness_HaltPseudoInstructionHalts :
    (placed 8191 0x5FFF zeroRegs).status = .running ∧ (placed 8191 0x5FFF zeroRegs).pc.toNat < 8192 ∧
    AsmItem.halt.word [] (placed 8191 0x5FFF zeroRegs).pc.toNat = some (placed 8191 0x5FFF zeroRegs).fetch := by
  decide

end Sys2Proof.Tests
end

/-! ## The state and the instruction cycle (spec/10_state.md)

What a step can do to each part of the state is said once, in the first sections; the obligations about steps follow
from those lemmas by a case split. -/

namespace Sys2Proof

/-! ### The address decomposition (R220, R221) -/

/-- R151: a legal configuration's rows, ways and blocks make up its size. -/
theorem CacheCfg.size_eq_of_wellFormed {c : CacheCfg} (h : c.wellFormed = true) :
    c.rowCount * c.assoc * c.blockSize = c.size := by
  simp only [CacheCfg.wellFormed, CacheCfg.divisible, Bool.and_eq_true, beq_iff_eq] at h
  rw [Nat.mul_assoc]
  exact Nat.div_mul_cancel (Nat.dvd_of_mod_eq_zero h.2)

theorem CacheCfg.blockId_eq (c : CacheCfg) (a : Addr) : c.blockId a = c.tagOf a * c.rowCount + c.rowOf a :=
  (Nat.div_add_mod' _ _).symm

theorem CacheCfg.tagOf_le (c : CacheCfg) (a : Addr) : c.tagOf a ≤ 8191 / (c.blockSize * c.rowCount) := by
  rw [CacheCfg.tagOf, CacheCfg.blockId, Nat.div_div_eq_div_mul]
  exact Nat.div_le_div_right (Nat.le_of_lt_succ (Addr.toNat_lt a))

/-- Row and tag together name the block. -/
theorem CacheCfg.rowOf_tagOf_eq_iff (c : CacheCfg) (a b : Addr) :
    (c.rowOf a = c.rowOf b ∧ c.tagOf a = c.tagOf b) ↔ c.blockId a = c.blockId b := by
  constructor
  · rintro ⟨hrow, htag⟩
    rw [c.blockId_eq a, c.blockId_eq b, hrow, htag]
  · intro h
    simp only [CacheCfg.rowOf, CacheCfg.tagOf, h, and_self]

end Sys2Proof

namespace Sys2Proof.Machine

/-! ### The fetch and the halt test as the spec writes them -/

/-- R111: the cell fetched is the one at the low 13 bits of the pc. -/
theorem State.fetch_eq (s : State) : s.fetch = s.mem.read (s.pc.setWidth 13).toNat := by
  simp [State.fetch, State.memRead, State.pcCell]

/-- R131: the self-jump target is the low 13 bits of the pc, zero-extended. -/
theorem State.haltsAt_iff_eq (s : State) (p : Word) :
    s.haltsAt p = true ↔ p = (s.pc.setWidth 13).setWidth 16 := by
  have hlt := Word.toNat_lt s.pc
  have hcell : ((s.pc.setWidth 13).setWidth 16).toNat = s.pc.toNat % 8192 := by
    simp only [BitVec.toNat_setWidth]
    omega
  rw [State.haltsAt_iff, ← hcell, BitVec.toNat_inj]

/-! ### What a step can do -/

/-- R602: a `Reserved` word raises the fault or goes on to `pc + 1`, by `ON_RESERVED_FUNC`. -/
theorem State.execReserved_cases (s : State) (w : Word) :
    (s.params.onReserved = .fault ∧ s.execReserved w = s.raiseIllegalInstruction w) ∨
    (s.params.onReserved = .nop ∧ s.execReserved w = s.retire s.nextPc) := by
  unfold State.execReserved
  split
  · rename_i h; exact .inl ⟨h, rfl⟩
  · rename_i h; exact .inr ⟨h, rfl⟩

/-- A step finishes the effects of the instruction fetched, or raises the fault of a `Reserved` word, or passes over
that word. -/
theorem step_outcomes {s t : State} (h : step s = .next t) :
    (∃ i, t = (effects i s).retire (newPc i s)) ∨ t = s.raiseIllegalInstruction s.fetch ∨
      t = s.retire s.nextPc := by
  obtain ⟨-, ⟨i, -, hi⟩ | ⟨f, -, rfl⟩⟩ := step_cases h
  · rw [exec_eq] at hi
    injection hi with hi
    exact .inl ⟨i, hi.symm⟩
  · obtain ⟨-, e⟩ | ⟨-, e⟩ := s.execReserved_cases s.fetch
    · exact .inr (.inl e)
    · exact .inr (.inr e)

/-- R134, R140: a Running machine has a next state, and no other has. -/
theorem exists_step_iff (s : State) : (∃ t, step s = .next t) ↔ s.status = .running := by
  refine ⟨fun ⟨t, h⟩ => (step_cases h).1, fun hr => ?_⟩
  cases hd : decode s.fetch with
  | instr i => exact ⟨_, (step_of_instr hr hd).trans (exec_eq i s)⟩
  | reserved f => exact ⟨_, step_of_reserved hr hd⟩

@[simp] theorem effects_pc (i : Instr) (s : State) : (effects i s).pc = s.pc := (effects_frame i s).1

@[simp] theorem effects_steps (i : Instr) (s : State) : (effects i s).steps = s.steps := (effects_frame i s).2.1

@[simp] theorem effects_status (i : Instr) (s : State) : (effects i s).status = s.status :=
  (effects_frame i s).2.2.1

@[simp] theorem effects_params (i : Instr) (s : State) : (effects i s).params = s.params :=
  (effects_frame i s).2.2.2

/-- The finish of an instruction never ends Faulted from a state that is not. -/
theorem State.retire_not_faulted {s : State} (h : s.status = .running) (p : Word) (why : RunFault) :
    (s.retire p).status ≠ .faulted why := by
  rw [State.retire_status, h]
  split <;> simp

theorem step_params {s t : State} (h : step s = .next t) : t.params = s.params := by
  obtain ⟨i, rfl⟩ | rfl | rfl := step_outcomes h <;> simp

/-! ### The control transfers -/

/-- The instructions whose `new_pc` is not `pc + 1`: j, jal, jr, and a jeq whose registers are equal (R112). -/
def TransfersControl (i : Instr) (s : State) : Prop :=
  (∃ m, i = .j m) ∨ (∃ m, i = .jal m) ∨ (∃ a, i = .jr a) ∨
    ∃ a b m, i = .jeq a b m ∧ s.readReg a = s.readReg b

theorem newPc_of_not_transfersControl {i : Instr} {s : State} (h : ¬ TransfersControl i s) :
    newPc i s = s.nextPc := by
  cases i with
  | j m => exact absurd (.inl ⟨m, rfl⟩) h
  | jal m => exact absurd (.inr (.inl ⟨m, rfl⟩)) h
  | jr a => exact absurd (.inr (.inr (.inl ⟨a, rfl⟩))) h
  | jeq a b m => exact if_neg fun e => h (.inr (.inr (.inr ⟨a, b, m, rfl, e⟩)))
  | _ => rfl

/-- R133: only a control transfer can meet the halt test. -/
theorem transfersControl_of_haltsAt {i : Instr} {s : State} (h : (effects i s).haltsAt (newPc i s) = true) :
    TransfersControl i s := by
  by_contra hn
  rw [newPc_of_not_transfersControl hn] at h
  exact Bool.false_ne_true ((State.nextPc_not_halting (effects_pc i s)).symm.trans h)

/-- A control transfer makes no cache access and emits no record. -/
theorem TransfersControl.sameCaches {i : Instr} {s : State} (h : TransfersControl i s) :
    SameCaches s (effects i s) := by
  obtain ⟨m, rfl⟩ | ⟨m, rfl⟩ | ⟨a, rfl⟩ | ⟨a, b, m, rfl, -⟩ := h <;> exact ⟨rfl, rfl, rfl, rfl⟩

/-- A control transfer does not write register 0's slot; the link register is another one (R102). -/
theorem TransfersControl.reg0 {i : Instr} {s : State} (h : TransfersControl i s) :
    (effects i s).regs.get 0 = s.regs.get 0 := by
  obtain ⟨m, rfl⟩ | ⟨m, rfl⟩ | ⟨a, rfl⟩ | ⟨a, b, m, rfl, -⟩ := h
  case inr.inl => simp [effects, linkReg, Vector.get_eq_getElem]
  all_goals rfl

/-! ### What a step can do to memory and to register 0 -/

theorem effects_mem_cases (i : Instr) (s : State) :
    (effects i s).mem = s.mem ∨ ∃ a v, (effects i s).mem = s.mem.write a v := by
  cases i with
  | sw b a imm => exact .inr ⟨_, _, congrArg (Memory.write · _ _) (State.cacheAccess_mem s _)⟩
  | lw d a imm => exact .inl (State.cacheAccess_mem s _)
  | _ => exact .inl rfl

theorem step_mem_cases {s t : State} (h : step s = .next t) :
    t.mem = s.mem ∨ ∃ a v, t.mem = s.mem.write a v := by
  obtain ⟨i, rfl⟩ | rfl | rfl := step_outcomes h
  · simpa using effects_mem_cases i s
  · exact .inl rfl
  · exact .inl (State.retire_mem s _)

/-- The finish clears slot 0, unless it halts, which leaves the slot alone (R131, R132). -/
theorem State.retire_reg0 {s : State} {p : Word} (h : s.haltsAt p = true → s.regs.get 0 = 0#16) :
    (s.retire p).regs.get 0 = 0#16 := by
  rw [State.retire_regs]
  split
  · exact h ‹_›
  · simp [Vector.get_eq_getElem]

theorem step_reg0 {s t : State} (h : step s = .next t) (h0 : s.regs.get 0 = 0#16) : t.regs.get 0 = 0#16 := by
  obtain ⟨i, rfl⟩ | rfl | rfl := step_outcomes h
  · exact State.retire_reg0 fun hh => (transfersControl_of_haltsAt hh).reg0.trans h0
  · exact h0
  · exact State.retire_reg0 fun _ => h0

/-! ### What a step can do to the caches -/

theorem State.cacheAccess_l1 (s : State) (q : CacheRequest) :
    (s.cacheAccess q).l1 = (s.l1.access q.kind q.addr).cache := by
  obtain ⟨-, e⟩ | ⟨-, -, e⟩ | ⟨c, -, -, e⟩ := s.cacheAccess_cases q <;> rw [e] <;> rfl

theorem State.cacheAccess_l2_cases (s : State) (q : CacheRequest) :
    (s.cacheAccess q).l2 = s.l2 ∨
    ∃ c, s.l2 = some c ∧ (s.cacheAccess q).l2 = some (c.access q.kind q.addr).cache := by
  obtain ⟨-, e⟩ | ⟨-, -, e⟩ | ⟨c, -, hc, e⟩ := s.cacheAccess_cases q <;> rw [e]
  · exact .inl rfl
  · exact .inl rfl
  · exact .inr ⟨c, hc, rfl⟩

/-- The caches after an instruction are those before it, or those after one request (R240, R570). -/
theorem effects_caches_cases (i : Instr) (s : State) :
    ((effects i s).l1 = s.l1 ∧ (effects i s).l2 = s.l2) ∨
    ∃ q, (effects i s).l1 = (s.cacheAccess q).l1 ∧ (effects i s).l2 = (s.cacheAccess q).l2 := by
  cases i with
  | lw d a imm => exact .inr ⟨s.request .load a imm, rfl, rfl⟩
  | sw b a imm => exact .inr ⟨s.request .store a imm, rfl, rfl⟩
  | _ => exact .inl ⟨rfl, rfl⟩

theorem step_caches_cases {s t : State} (h : step s = .next t) :
    (t.l1 = s.l1 ∧ t.l2 = s.l2) ∨ ∃ q, t.l1 = (s.cacheAccess q).l1 ∧ t.l2 = (s.cacheAccess q).l2 := by
  obtain ⟨i, rfl⟩ | rfl | rfl := step_outcomes h
  · simpa using effects_caches_cases i s
  · exact .inl ⟨rfl, rfl⟩
  · exact .inl ⟨State.retire_l1 s _, State.retire_l2 s _⟩

/-- A step leaves L1 as it was or accesses it once. -/
theorem step_l1_cases {s t : State} (h : step s = .next t) :
    t.l1 = s.l1 ∨ ∃ k a, t.l1 = (s.l1.access k a).cache := by
  obtain ⟨e, -⟩ | ⟨q, e, -⟩ := step_caches_cases h
  · exact .inl e
  · exact .inr ⟨q.kind, q.addr, e.trans (s.cacheAccess_l1 q)⟩

/-- A step leaves L2 as it was or, when there is one, accesses it once. -/
theorem step_l2_cases {s t : State} (h : step s = .next t) :
    t.l2 = s.l2 ∨ ∃ c k a, s.l2 = some c ∧ t.l2 = some (c.access k a).cache := by
  obtain ⟨-, e⟩ | ⟨q, -, e⟩ := step_caches_cases h
  · exact .inl e
  · rw [e]
    obtain h2 | ⟨c, hc, h2⟩ := s.cacheAccess_l2_cases q
    · exact .inl h2
    · exact .inr ⟨c, q.kind, q.addr, hc, h2⟩

/-! ### Noninterference of the caches (R164) -/

section
variable {s t : State}

/-- Every operand form reads only what the program sees. -/
theorem SameProgramView.operands (h : SameProgramView s t) :
    (∀ r, t.readReg r = s.readReg r) ∧ t.nextPc = s.nextPc ∧ (∀ m, t.branchTarget m = s.branchTarget m) ∧
    (∀ r m, t.effAddr r m = s.effAddr r m) ∧ ∀ a b, t.setLess a b = s.setLess a b := by
  obtain ⟨hregs, hpc, -, -, -, hparams⟩ := h
  have hr := State.readReg_congr hregs
  simp [State.branchTarget, State.nextPc, State.effAddr, State.setLess, hr, hpc, hparams]

theorem SameProgramView.newPc (h : SameProgramView s t) (i : Instr) : newPc i t = newPc i s := by
  obtain ⟨hread, hnext, hbranch, -, -⟩ := h.operands
  cases i <;> simp only [Machine.newPc, hread, hnext, hbranch]

theorem SameProgramView.writeReg (h : SameProgramView s t) (r : RegIdx) (v : Word) :
    SameProgramView (s.writeReg r v) (t.writeReg r v) := by
  obtain ⟨hregs, hrest⟩ := h
  exact ⟨by simp [hregs], hrest⟩

theorem SameProgramView.memWrite (h : SameProgramView s t) (a : Nat) (v : Word) :
    SameProgramView (s.memWrite a v) (t.memWrite a v) := by
  obtain ⟨hregs, hpc, hmem, hrest⟩ := h
  exact ⟨hregs, hpc, by simp [hmem], hrest⟩

/-- A cache access is invisible to the program, whatever the two hierarchies and requests are (R231, R243). -/
theorem SameProgramView.cacheAccess (h : SameProgramView s t) (p q : CacheRequest) :
    SameProgramView (s.cacheAccess p) (t.cacheAccess q) := by
  simpa [SameProgramView] using h

theorem SameProgramView.retire (h : SameProgramView s t) (p : Word) :
    SameProgramView (s.retire p) (t.retire p) := by
  obtain ⟨hregs, hpc, hmem, hsteps, hstatus, hparams⟩ := h
  have hh : t.haltsAt p = s.haltsAt p := by simp [State.haltsAt, State.pcCell, hpc]
  simp [SameProgramView, State.retire_regs, State.retire_pc, State.retire_status, *]

theorem SameProgramView.raiseIllegalInstruction (h : SameProgramView s t) (w : Word) :
    SameProgramView (s.raiseIllegalInstruction w) (t.raiseIllegalInstruction w) := by
  obtain ⟨hregs, hpc, hmem, hsteps, -, hparams⟩ := h
  exact ⟨hregs, hpc, hmem, hsteps, by simp [hpc], hparams⟩

theorem SameProgramView.effects (h : SameProgramView s t) (i : Instr) :
    SameProgramView (effects i s) (effects i t) := by
  obtain ⟨hread, hnext, -, hea, hless⟩ := h.operands
  cases i with
  | jr _ | j _ | jeq _ _ _ => exact h
  | lw d a imm =>
    have hload : (t.cacheAccess (t.request .load a imm)).memRead (t.effAddr a imm).toNat =
        (s.cacheAccess (s.request .load a imm)).memRead (s.effAddr a imm).toNat := by
      obtain ⟨-, -, hmem, -⟩ := h
      simp [State.memRead, hmem, hea]
    simp only [Machine.effects, hload]
    exact (h.cacheAccess _ _).writeReg _ _
  | sw b a imm =>
    simp only [Machine.effects, hread, hea]
    exact (h.cacheAccess _ _).memWrite _ _
  | _ =>
    simp only [Machine.effects, hread, hnext, hless]
    exact h.writeReg _ _

theorem SameProgramView.execReserved (h : SameProgramView s t) (w : Word) :
    SameProgramView (s.execReserved w) (t.execReserved w) := by
  obtain ⟨-, -, -, -, -, hparams⟩ := id h
  obtain ⟨-, hnext, -⟩ := h.operands
  obtain ⟨hs, es⟩ | ⟨hs, es⟩ := s.execReserved_cases w <;>
    obtain ⟨ht, et⟩ | ⟨ht, et⟩ := t.execReserved_cases w
  · rw [es, et]; exact h.raiseIllegalInstruction w
  · simp [hparams, hs] at ht
  · simp [hparams, hs] at ht
  · rw [es, et, hnext]; exact h.retire _

/-- One step of two machines with the same program view. -/
theorem SameProgramView.step {s' : State} (h : SameProgramView s t) (hs : step s = .next s') :
    ∃ t', step t = .next t' ∧ SameProgramView s' t' := by
  obtain ⟨hr, hcases⟩ := step_cases hs
  obtain ⟨-, hpc, hmem, -, hstatus, -⟩ := id h
  have hfetch : t.fetch = s.fetch := by rw [State.fetch_eq, State.fetch_eq, hpc, hmem]
  obtain ⟨i, hd, hi⟩ | ⟨f, hd, rfl⟩ := hcases
  · rw [exec_eq] at hi
    injection hi with hi
    subst hi
    refine ⟨_, (step_of_instr (hstatus.trans hr) (hfetch ▸ hd)).trans (exec_eq i t), ?_⟩
    rw [h.newPc]
    exact (h.effects i).retire _
  · exact ⟨_, step_of_reserved (hstatus.trans hr) (hfetch ▸ hd), hfetch ▸ h.execReserved _⟩

end

/-- Settles O46: the program view is a simulation, carried through the run by induction on the number of steps. -/
theorem cachesNeverInfluenceTheProgram : Obligations.CachesNeverInfluenceTheProgram := by
  intro n
  induction n with
  | zero =>
    intro s1 s2 t1 h hrun
    cases hrun
    exact ⟨s2, rfl, h⟩
  | succ n ih =>
    intro s1 s2 t1 h hrun
    obtain ⟨u1, hstep, hrest⟩ := run_succ hrun
    obtain ⟨u2, hstep2, hu⟩ := h.step hstep
    obtain ⟨t2, hrun2, ht⟩ := ih u1 u2 t1 hu hrest
    exact ⟨t2, (run_of_step hstep2 n).trans hrun2, ht⟩

/-- Settles O50, field by field of the invariant from what a step can do to that part of the state. -/
theorem everyStepKeepsTheInvariant : Obligations.EveryStepKeepsTheInvariant := by
  intro s t hinv hstep
  refine ⟨step_reg0 hstep hinv.reg0, ?_, ?_, ?_⟩
  · obtain e | ⟨a, v, e⟩ := step_mem_cases hstep <;> rw [e]
    · exact hinv.mem_wf
    · exact Memory.write_wf hinv.mem_wf a v
  · obtain e | ⟨k, a, e⟩ := step_l1_cases hstep <;> rw [e]
    · exact hinv.l1_inv
    · exact hinv.l1_inv.access k a
  · obtain e | ⟨c, k, a, hc, e⟩ := step_l2_cases hstep <;> rw [e]
    · exact hinv.l2_inv
    · rintro _ ⟨⟩
      exact (hinv.l2_inv c hc).access k a

/-- Settles O24: the halt test singles out the control transfers, and those leave the caches alone. -/
theorem onlySelfTransfersHalt : Obligations.OnlySelfTransfersHalt := by
  intro i s t hr hexec hhalt
  rw [exec_eq] at hexec
  injection hexec with hexec
  subst hexec
  have hh : (effects i s).haltsAt (newPc i s) = true := by
    by_contra hn
    simp [State.retire_status, hn, hr] at hhalt
  have htransfer := transfersControl_of_haltsAt hh
  refine ⟨htransfer, by simp [State.retire_pc, hh], ?_⟩
  simpa [SameCaches] using htransfer.sameCaches

/-- Settles O28: the fault alone does not pass through the finish of an instruction. -/
theorem everyExecutedInstructionCountsOneStep : Obligations.EveryExecutedInstructionCountsOneStep := by
  intro s t hstep
  obtain ⟨hr, -⟩ := step_cases hstep
  obtain ⟨i, rfl⟩ | rfl | rfl := step_outcomes hstep
  · refine ⟨fun ⟨why, hw⟩ => absurd hw (State.retire_not_faulted ?_ _ why), fun _ => by simp⟩
    rw [effects_status, hr]
  · exact ⟨fun _ => rfl, fun hn => absurd rfl (hn _)⟩
  · exact ⟨fun ⟨why, hw⟩ => absurd hw (State.retire_not_faulted hr _ why), fun _ => by simp⟩

/-- Settles O29: an access keeps a cache's configuration, and a step does nothing else to a cache. -/
theorem noStepChangesTheConfiguration : Obligations.NoStepChangesTheConfiguration := by
  intro s t hstep
  refine ⟨?_, ?_, step_params hstep⟩
  · obtain e | ⟨k, a, e⟩ := step_l1_cases hstep <;> rw [e]
    exact Cache.access_cfg _ _ _
  · obtain e | ⟨c, k, a, hc, e⟩ := step_l2_cases hstep <;> rw [e]
    rw [hc]
    rfl

/-! ### The address decomposition (R220, R221) -/

/-- Settles O34, clause by clause. -/
theorem addressDecomposition : Obligations.AddressDecomposition := by
  intro c hc
  have hrows := (CacheCfg.pos_of_wellFormed hc).1
  exact ⟨CacheCfg.size_eq_of_wellFormed hc, hrows, fun a =>
    ⟨rfl, rfl, Nat.mod_lt _ hrows, c.tagOf_le a, c.blockId_eq a, c.rowOf_tagOf_eq_iff a⟩⟩

/-! ### Occupied ways (R162 (c)) -/

/-- A fill of a way that does not exist changes no way. -/
theorem Row.fill_ways_of_le {R : Row} {v : Nat} (h : R.ways.length ≤ v) (t : Nat) :
    (R.fill v t).ways = R.ways :=
  List.set_eq_of_length_le h

theorem Row.occupiedAt_fill_of_occupiedAt {R : Row} {w : Nat} (h : R.occupiedAt w = true) (v t : Nat) :
    (R.fill v t).occupiedAt w = true := by
  by_cases hv : v < R.ways.length
  · rw [Row.occupiedAt_fill hv, h, ite_self]
  · rwa [Row.occupiedAt, Row.fill_ways_of_le (Nat.le_of_not_lt hv)]

theorem Row.occupiedAt_access_of_occupiedAt {R : Row} {w : Nat} (h : R.occupiedAt w = true) (t : Nat) :
    (R.access t).1.occupiedAt w = true := by
  obtain ⟨v, -, -, e⟩ | ⟨-, e⟩ := R.access_cases t <;> rw [e]
  · exact h
  · exact Row.occupiedAt_fill_of_occupiedAt h _ _

/-- An access to a row that does not exist changes no row. -/
theorem Cache.access_rows_of_le {C : Cache} {a : Addr} (h : C.rows.length ≤ C.cfg.rowOf a) (k : AccessKind) :
    (C.access k a).cache.rows = C.rows :=
  List.set_eq_of_length_le h

theorem Cache.occupiedAt_access_of_occupiedAt {C : Cache} {r w : Nat} (h : (C.rowAt r).occupiedAt w = true)
    (k : AccessKind) (a : Addr) : ((C.access k a).cache.rowAt r).occupiedAt w = true := by
  by_cases hrow : C.cfg.rowOf a < C.rows.length
  · rw [Cache.rowAt_access C k a hrow]
    split
    · subst r; exact Row.occupiedAt_access_of_occupiedAt h _
    · exact h
  · rwa [Cache.rowAt, Cache.access_rows_of_le (Nat.le_of_not_lt hrow)]

/-- Settles O42: an access, the one thing a step does to a cache, keeps every occupied way occupied. -/
theorem occupiedWaysStayOccupied : Obligations.OccupiedWaysStayOccupied := by
  intro s t hstep r w
  constructor
  · intro h
    obtain e | ⟨k, a, e⟩ := step_l1_cases hstep <;> rw [e]
    · exact h
    · exact Cache.occupiedAt_access_of_occupiedAt h k a
  · intro c hc h
    obtain e | ⟨c', k, a, hc', e⟩ := step_l2_cases hstep
    · exact ⟨c, e.trans hc, h⟩
    · obtain rfl : c = c' := Option.some.inj (hc.symm.trans hc')
      exact ⟨_, e, Cache.occupiedAt_access_of_occupiedAt h k a⟩

/-! ### Tags of unoccupied ways (D23) -/

section
variable {R Q : Row}

/-- A search that asks a way only for its occupancy, and for its tag when it is occupied, ends alike in both rows. -/
theorem Row.SameOccupied.findIdx?_eq (h : R.SameOccupied Q) (p : Way → Bool)
    (hp : ∀ x y : Way, x.occupied = y.occupied → (y.occupied = true → x.tag = y.tag) → p x = p y) :
    Q.ways.findIdx? p = R.ways.findIdx? p := by
  have hmap : Q.ways.map p = R.ways.map p := by
    refine List.ext_getElem (by simp [h.length]) fun k hQ hR => ?_
    rw [List.length_map] at hQ hR
    have hocc := h.occupied k
    have htag := h.tag k
    rw [Row.occupiedAt_of_lt hQ, Row.occupiedAt_of_lt hR] at hocc
    rw [Row.occupiedAt_of_lt hR, Row.tagAt_of_lt hQ, Row.tagAt_of_lt hR] at htag
    simpa using hp _ _ hocc htag
  simpa [List.findIdx?_map] using congrArg (List.findIdx? id) hmap

theorem Row.SameOccupied.lookup_eq (h : R.SameOccupied Q) (t : Nat) : Q.lookup t = R.lookup t := by
  refine h.findIdx?_eq _ fun x y hocc htag => ?_
  cases hy : y.occupied with
  | false => simp [hocc, hy]
  | true => simp [hocc, hy, htag hy]

theorem Row.SameOccupied.victim_eq (h : R.SameOccupied Q) : Q.victim = R.victim := by
  have hfree : Q.firstFree = R.firstFree := h.findIdx?_eq _ fun x y hocc _ => by rw [hocc]
  rw [Row.victim, Row.victim, hfree, h.order]

theorem Row.SameOccupied.promote (h : R.SameOccupied Q) (w : Nat) :
    (R.promote w).SameOccupied (Q.promote w) where
  order := by simp only [Row.promote, h.order]
  length := h.length
  occupied := h.occupied
  tag := h.tag

theorem Row.SameOccupied.fill (h : R.SameOccupied Q) (v t : Nat) : (R.fill v t).SameOccupied (Q.fill v t) := by
  have horder : (Q.fill v t).order = (R.fill v t).order := by simp only [Row.fill, h.order]
  by_cases hR : v < R.ways.length
  · have hQ : v < Q.ways.length := h.length ▸ hR
    refine ⟨horder, by simp [Row.fill, h.length], fun w => ?_, fun w => ?_⟩
    · rw [Row.occupiedAt_fill hQ, Row.occupiedAt_fill hR, h.occupied]
    · rw [Row.occupiedAt_fill hR, Row.tagAt_fill hQ, Row.tagAt_fill hR]
      split
      · exact fun _ => rfl
      · exact h.tag w
  · have eR := Row.fill_ways_of_le (Nat.le_of_not_lt hR) t
    have eQ := Row.fill_ways_of_le (R := Q) (h.length ▸ Nat.le_of_not_lt hR) t
    refine ⟨horder, by rw [eR, eQ, h.length], fun w => ?_, fun w => ?_⟩
    · rw [Row.occupiedAt, Row.occupiedAt, eR, eQ]; exact h.occupied w
    · rw [Row.occupiedAt, Row.tagAt, Row.tagAt, eR, eQ]; exact h.tag w

end

/-- Settles O43: both rows find the same way or fill the same victim. -/
theorem tagOfUnoccupiedWayIsUnobservable : Obligations.TagOfUnoccupiedWayIsUnobservable := by
  intro R Q tag h
  unfold Row.access
  rw [h.lookup_eq tag, h.victim_eq]
  cases R.lookup tag with
  | some w => exact ⟨rfl, h.promote w⟩
  | none => exact ⟨rfl, h.fill _ _⟩

/-! ### The instruction cycle (R130, R131, R134) -/

/-- Settles O22: the cell named is the one fetched. -/
theorem stepRunsTheDecodedInstruction : Obligations.StepRunsTheDecodedInstruction := by
  intro s i hr hd
  rw [← State.fetch_eq] at hd
  exact step_of_instr hr hd

/-- Settles O23, by the two cases of the halt test. -/
theorem finishHaltsOnSelfJumpElseAdvances : Obligations.FinishHaltsOnSelfJumpElseAdvances := by
  intro s newPc
  rw [← s.haltsAt_iff_eq newPc]
  refine ⟨fun h => ?_, fun h => ?_⟩
  · rw [State.retire_of_halts h]; rfl
  · rw [ne_eq, ← State.haltsAt_iff_eq, Bool.not_eq_true] at h
    rw [State.retire_of_not_halts h]; rfl

/-- Settles O25: every instruction and every `Reserved` word answers a next state, and only a Running machine runs one. -/
theorem stepsExactlyWhileRunning : Obligations.StepsExactlyWhileRunning := fun s =>
  ⟨exists_step_iff s, fun h => by simp [step, h], fun why h => by simp [step, h]⟩

/-! ### Reset (R180) -/

theorem State.readReg_resetOf (p : Params) (c1 : CacheCfg) (c2 : Option CacheCfg) (r : RegIdx) :
    (State.resetOf p c1 c2).readReg r = 0#16 := by
  simp [State.readReg, Vector.get_eq_getElem]

/-- Every way of an empty cache is unoccupied, and every order empty. -/
theorem Cache.rowAt_empty_unoccupied (c : CacheCfg) (r w : Nat) :
    ((Cache.empty c).rowAt r).occupiedAt w = false ∧ ((Cache.empty c).rowAt r).order = [] := by
  rw [Cache.rowAt_empty]
  exact ⟨Row.occupiedAt_empty _ w, rfl⟩

/-- Settles O48, field by field of the state after reset. -/
theorem resetValues : Obligations.ResetValues := by
  intro p c1 c2
  refine ⟨rfl, State.readReg_resetOf p c1 c2, Memory.read_nil, rfl, rfl, rfl, rfl, ?_,
    Cache.rowAt_empty_unoccupied c1, fun c hc => ?_, ?_⟩
  · cases c2 <;> rfl
  · obtain ⟨c', -, rfl⟩ := Option.map_eq_some_iff.1 hc
    exact Cache.rowAt_empty_unoccupied c'
  · cases c2 <;> rfl

theorem State.resetOf_inv (p : Params) {c1 : CacheCfg} {c2 : Option CacheCfg} (h1 : c1.wellFormed = true)
    (h2 : ∀ c, c2 = some c → c.wellFormed = true) : (State.resetOf p c1 c2).Inv where
  reg0 := rfl
  mem_wf := Memory.nil_wf
  l1_inv := Cache.empty_inv h1
  l2_inv c hc := by
    obtain ⟨c', hc', rfl⟩ := Option.map_eq_some_iff.1 hc
    exact Cache.empty_inv (h2 c' hc')

/-- Settles O49; the configuration of `State.reset` is a legal one. -/
theorem resetMeetsTheInvariant : Obligations.ResetMeetsTheInvariant := by
  refine ⟨fun p c1 c2 => State.resetOf_inv p, State.resetOf_inv Config.params (by decide) fun c hc => ?_⟩
  obtain rfl : (⟨8, 4, 2⟩ : CacheCfg) = c := Option.some.inj hc
  decide

end Sys2Proof.Machine

/-! ## Memory and the cache hierarchy (spec/20_memory.md)

One access to a row is one step of a bounded recency list of its tags; the laws of eviction and of the most recently
used tags are read off that. What a step stores, and what it requests of the caches, is said once each. -/

namespace Sys2Proof.Machine

/-! ### Lists without repetition -/

theorem eraseDups_filter (p : Nat → Bool) : ∀ l : List Nat, (l.filter p).eraseDups = l.eraseDups.filter p
  | [] => rfl
  | a :: l => by
    have ih := eraseDups_filter p (l.filter fun b => !b == a)
    rw [List.eraseDups_cons]
    by_cases ha : p a = true
    · rw [List.filter_cons_of_pos ha, List.filter_cons_of_pos ha, List.eraseDups_cons, ← ih,
        List.filter_filter, List.filter_filter]
      simp only [Bool.and_comm]
    · rw [List.filter_cons_of_neg ha, List.filter_cons_of_neg ha, ← ih, List.filter_filter]
      refine congrArg _ (List.filter_congr fun b _ => ?_)
      by_cases hb : b = a <;> simp [hb, ha]
  termination_by l => l.length
  decreasing_by exact Nat.lt_succ_of_le (List.length_filter_le _ _)

theorem eraseDups_nodup : ∀ l : List Nat, l.eraseDups.Nodup
  | [] => List.nodup_nil
  | a :: l => by
    rw [List.eraseDups_cons, eraseDups_filter]
    exact List.nodup_cons.2 ⟨by simp, (eraseDups_nodup l).filter _⟩

theorem take_erase_take (a : Nat) (l : List Nat) (m : Nat) :
    ((l.take (m + 1)).erase a).take m = (l.erase a).take m := by
  induction l generalizing m with
  | nil => rfl
  | cons b l ih =>
    by_cases hb : b = a
    · simp [hb]
    · cases m with
      | zero => rfl
      | succ m => simp [hb, ih]

/-! ### Occupied ways and the recency order (R160, R162) -/

/-- The tags most recently used first, after the use of `t`, when there is room for `n` of them (R232, R233). -/
def useTag (n t : Nat) (tags : List Nat) : List Nat := (t :: tags.erase t).take n

/-- One more use at the head of a history is one use of the list of its most recent tags. -/
theorem take_eraseDups_cons (n t : Nat) (history : List Nat) :
    (t :: history).eraseDups.take n = useTag n t (history.eraseDups.take n) := by
  cases n with
  | zero => rfl
  | succ m =>
    rw [useTag, List.take_succ_cons, take_erase_take, (eraseDups_nodup history).erase_eq_filter,
      List.eraseDups_cons, eraseDups_filter]
    rfl

section
variable {R : Row} {n : Nat}

/-- The order lists the occupied ways, each once. -/
theorem Row.Inv.order_perm (h : R.Inv n) : R.order.Perm ((List.range n).filter fun w => R.occupiedAt w) := by
  refine (List.perm_ext_iff_of_nodup h.order_nodup (List.nodup_range.filter _)).2 fun w => ?_
  rw [h.mem_order, List.mem_filter, List.mem_range, ← h.ways_length]
  exact ⟨fun hw => ⟨Row.lt_of_occupiedAt hw, hw⟩, And.right⟩

theorem Row.Inv.order_length_of_full (h : R.Inv n) (full : ∀ w < n, R.occupiedAt w = true) :
    R.order.length = n := by
  rw [h.order_perm.length_eq, List.filter_eq_self.2 fun w hw => full w (List.mem_range.1 hw), List.length_range]

theorem Row.Inv.order_length_lt (h : R.Inv n) {v : Nat} (hv : v < n) (free : R.occupiedAt v = false) :
    R.order.length < n := by
  rw [h.order_perm.length_eq]
  conv => rhs; rw [← List.length_range (n := n)]
  exact List.length_filter_lt_length_iff_exists.2 ⟨v, List.mem_range.2 hv, by simp [free]⟩

theorem Row.Inv.order_length_le (h : R.Inv n) : R.order.length ≤ n := by
  simpa [h.order_perm.length_eq] using List.length_filter_le (fun w => R.occupiedAt w) (List.range n)

theorem Row.Inv.mem_tagsByRecency (h : R.Inv n) (t : Nat) :
    t ∈ R.tagsByRecency ↔ ∃ w, R.occupiedAt w = true ∧ R.tagAt w = t := by
  simp only [Row.tagsByRecency, List.mem_map, h.mem_order]

theorem Row.Inv.tagsByRecency_nodup (h : R.Inv n) : R.tagsByRecency.Nodup :=
  h.order_nodup.map_on fun w hw v hv => h.tags_distinct w v ((h.mem_order w).1 hw) ((h.mem_order v).1 hv)

@[simp] theorem Row.tagsByRecency_length (R : Row) : R.tagsByRecency.length = R.order.length := List.length_map _

/-- The victim of a full row is at the back of the order; the victim of another row is not in the order (R233). -/
theorem Row.Inv.erase_victim (h : R.Inv n) (hn : 0 < n) : R.order.erase R.victim = R.order.take (n - 1) := by
  rcases R.victim_cases with ⟨hv, free, -⟩ | ⟨full, -⟩
  · rw [h.ways_length] at hv
    have habsent : R.victim ∉ R.order := by simp [h.mem_order, free]
    rw [List.erase_of_not_mem habsent, List.take_of_length_le (Nat.le_sub_one_of_lt (h.order_length_lt hv free))]
  · obtain ⟨front, horder⟩ := List.getLast?_eq_some_iff.1 (h.victim_of_full hn full).1
    have hlength := h.order_length_of_full (h.ways_length ▸ full)
    have hfront : R.victim ∉ front := by
      have := h.order_nodup
      rw [horder] at this
      exact fun hm => List.disjoint_of_nodup_append this hm (List.mem_singleton_self _)
    rw [← hlength, horder, List.erase_append_right _ hfront]
    simp

/-- An occupied way's tag leaves the list of tags as the way leaves the order. -/
theorem Row.Inv.map_tagAt_erase (h : R.Inv n) {w : Nat} (hw : R.occupiedAt w = true) :
    (R.order.erase w).map R.tagAt = R.tagsByRecency.erase (R.tagAt w) := by
  rw [h.order_nodup.erase_eq_filter, h.tagsByRecency_nodup.erase_eq_filter, Row.tagsByRecency, List.filter_map]
  refine congrArg _ (List.filter_congr fun v hv => ?_)
  have hiff : v = w ↔ R.tagAt v = R.tagAt w :=
    ⟨fun e => e ▸ rfl, h.tags_distinct v w ((h.mem_order v).1 hv) hw⟩
  simp [bne, Bool.beq_eq_decide_eq, hiff]

theorem Row.Inv.tagsByRecency_promote (h : R.Inv n) {w : Nat} (hw : R.occupiedAt w = true) :
    (R.promote w).tagsByRecency = useTag n (R.tagAt w) R.tagsByRecency := by
  have htags : (R.promote w).tagsByRecency = R.tagAt w :: R.tagsByRecency.erase (R.tagAt w) :=
    congrArg _ (h.map_tagAt_erase hw)
  have hroom := (h.promote hw).order_length_le
  rw [← Row.tagsByRecency_length, htags] at hroom
  rw [htags, useTag, List.take_of_length_le hroom]

theorem Row.Inv.tagsByRecency_fill (h : R.Inv n) (hn : 0 < n) {t : Nat}
    (new : ∀ w, R.occupiedAt w = true → R.tagAt w ≠ t) :
    (R.fill R.victim t).tagsByRecency = useTag n t R.tagsByRecency := by
  have htag := Row.tagAt_fill (h.victim_lt hn) t
  have hrest : (R.order.erase R.victim).map (R.fill R.victim t).tagAt = (R.order.erase R.victim).map R.tagAt :=
    List.map_congr_left fun w hw => by rw [htag, if_neg (h.order_nodup.mem_erase_iff.1 hw).1]
  have habsent : t ∉ R.tagsByRecency := fun hm =>
    let ⟨w, hw, e⟩ := (h.mem_tagsByRecency t).1 hm
    new w hw e
  obtain ⟨m, rfl⟩ : ∃ m, n = m + 1 := ⟨n - 1, by omega⟩
  calc (R.fill R.victim t).tagsByRecency
      = t :: (R.order.erase R.victim).map R.tagAt := by
        rw [← hrest, Row.tagsByRecency, Row.fill, List.map_cons]
        exact congrArg (· :: _) ((htag _).trans (if_pos rfl))
    _ = useTag (m + 1) t R.tagsByRecency := by
        rw [h.erase_victim hn, List.map_take, useTag, List.erase_of_not_mem habsent]
        rfl

/-- R232, R233: an access uses its tag, in a list with room for one tag per way. -/
theorem Row.Inv.tagsByRecency_access (h : R.Inv n) (hn : 0 < n) (t : Nat) :
    (R.access t).1.tagsByRecency = useTag n t R.tagsByRecency := by
  obtain ⟨w, hw, rfl, e⟩ | ⟨new, e⟩ := R.access_cases t <;> rw [e]
  · exact h.tagsByRecency_promote hw
  · exact h.tagsByRecency_fill hn new

end

/-! ### Sequences of requests -/

@[simp] theorem Cache.accessAll_nil (C : Cache) : C.accessAll [] = C := rfl

theorem Cache.accessAll_concat (C : Cache) (reqs : List (AccessKind × Addr)) (q : AccessKind × Addr) :
    C.accessAll (reqs ++ [q]) = ((C.accessAll reqs).access q.1 q.2).cache := by
  simp [Cache.accessAll]

@[simp] theorem Cache.accessAll_cfg (C : Cache) (reqs : List (AccessKind × Addr)) :
    (C.accessAll reqs).cfg = C.cfg := by
  induction reqs using List.reverseRecOn with
  | nil => rfl
  | append_singleton reqs q ih => rw [Cache.accessAll_concat, Cache.access_cfg, ih]

theorem Cache.Inv.accessAll {C : Cache} (h : C.Inv) (reqs : List (AccessKind × Addr)) : (C.accessAll reqs).Inv := by
  induction reqs using List.reverseRecOn with
  | nil => exact h
  | append_singleton reqs q ih => rw [Cache.accessAll_concat]; exact ih.access _ _

theorem tagHistory_concat (c : CacheCfg) (r : Nat) (reqs : List (AccessKind × Addr)) (q : AccessKind × Addr) :
    tagHistory c r (reqs ++ [q]) =
      if r = c.rowOf q.2 then c.tagOf q.2 :: tagHistory c r reqs else tagHistory c r reqs := by
  by_cases hr : r = c.rowOf q.2
  · simp [tagHistory, hr]
  · simp [tagHistory, hr, Ne.symm hr]

/-- Settles O45: each request to the row is one use of its tag, in the row and in the history alike. -/
theorem rowsHoldTheMostRecentlyUsedTags : Obligations.RowsHoldTheMostRecentlyUsedTags := by
  intro c reqs r hc _
  induction reqs using List.reverseRecOn with
  | nil => simp [Cache.rowAt_empty, Row.tagsByRecency, Row.empty, tagHistory]
  | append_singleton reqs q ih =>
    have hinv := (Cache.empty_inv hc).accessAll reqs
    have hcfg : ((Cache.empty c).accessAll reqs).cfg = c := Cache.accessAll_cfg _ _
    have hrow := Cache.rowAt_access _ q.1 q.2 (hinv.rowOf_lt q.2) r
    rw [hcfg] at hrow
    rw [Cache.accessAll_concat, hrow, tagHistory_concat]
    split
    · rename_i hr
      have hri := hinv.rowAt r
      rw [hcfg] at hri
      rw [← hr, hri.tagsByRecency_access (CacheCfg.pos_of_wellFormed hc).2.1, ih, take_eraseDups_cons]
    · exact ih

/-! ### What a step stores and requests (R202, R240) -/

section
variable {s t : State}

/-- `step_outcomes`, with what the word fetched decodes to. -/
theorem step_outcomes_decoded (h : step s = .next t) :
    (∃ i, decode s.fetch = .instr i ∧ t = (effects i s).retire (newPc i s)) ∨
    ∃ f, decode s.fetch = .reserved f ∧ (t = s.raiseIllegalInstruction s.fetch ∨ t = s.retire s.nextPc) := by
  obtain ⟨-, ⟨i, hd, hi⟩ | ⟨f, hd, rfl⟩⟩ := step_cases h
  · rw [exec_eq] at hi
    injection hi with hi
    exact .inl ⟨i, hd, hi.symm⟩
  · exact .inr ⟨f, hd, (s.execReserved_cases s.fetch).imp And.right And.right⟩

/-- R202: a step makes the store of the sw it executes, and no other step changes memory. -/
theorem step_store_cases (h : step s = .next t) :
    (s.pendingStore = none ∧ t.mem = s.mem) ∨
    ∃ ea v, s.pendingStore = some (ea, v) ∧ t.mem = s.mem.write ea.toNat v := by
  obtain ⟨i, hd, rfl⟩ | ⟨f, hd, hreserved⟩ := step_outcomes_decoded h
  · rw [State.retire_mem, State.pendingStore, hd]
    cases i with
    | sw value base imm => exact .inr ⟨_, _, rfl, by simp [effects]⟩
    | lw dst base imm => exact .inl ⟨rfl, by simp [effects]⟩
    | _ => exact .inl ⟨rfl, rfl⟩
  · refine .inl ⟨by simp [State.pendingStore, hd], ?_⟩
    obtain rfl | rfl := hreserved
    · rfl
    · exact State.retire_mem s _

/-- R240, R570: a step makes the request of the lw or sw it executes, and no other step touches the caches or emits a
record. -/
theorem step_request_cases (h : step s = .next t) :
    (s.pendingRequest = none ∧ t.l1 = s.l1 ∧ t.l2 = s.l2 ∧ t.out = s.out) ∨
    ∃ q, s.pendingRequest = some q ∧
      t.l1 = (s.cacheAccess q).l1 ∧ t.l2 = (s.cacheAccess q).l2 ∧ t.out = (s.cacheAccess q).out := by
  obtain ⟨i, hd, rfl⟩ | ⟨f, hd, hreserved⟩ := step_outcomes_decoded h
  · rw [State.retire_l1, State.retire_l2, State.retire_out, State.pendingRequest, hd]
    cases i with
    | lw dst base imm => exact .inr ⟨_, rfl, rfl, rfl, rfl⟩
    | sw value base imm => exact .inr ⟨_, rfl, rfl, rfl, rfl⟩
    | _ => exact .inl ⟨rfl, rfl, rfl, rfl⟩
  · refine .inl ⟨by simp [State.pendingRequest, hd], ?_⟩
    obtain rfl | rfl := hreserved
    · exact ⟨rfl, rfl, rfl⟩
    · exact ⟨State.retire_l1 s _, State.retire_l2 s _, State.retire_out s _⟩

/-- R201 at the cell an address names. -/
theorem Memory.read_write_addr (m : Memory) (a : Addr) (v : Word) (x : Nat) :
    (m.write a.toNat v).read x = if x % 8192 = a.toNat then v else m.read x := by
  rw [Memory.read_write, Nat.mod_eq_of_lt (Addr.toNat_lt a)]

/-- A step that does not store to a cell keeps it. -/
theorem step_read_of_not_stored (h : step s = .next t) {a : Addr}
    (hother : ∀ q, s.pendingStore = some q → q.1 ≠ a) : t.mem.read a.toNat = s.mem.read a.toNat := by
  obtain ⟨-, e⟩ | ⟨ea, v, hstore, e⟩ := step_store_cases h <;> rw [e]
  rw [Memory.read_write_addr, if_neg]
  rw [Nat.mod_eq_of_lt (Addr.toNat_lt a), BitVec.toNat_inj]
  exact (hother _ hstore).symm

/-- R202 along a run: a cell that no step stores to is kept. -/
theorem run_read_of_not_stored {n : Nat} {a : Addr} (hrun : Sys2Proof.core.run n s = .next t)
    (hother : ∀ k u, k < n → Sys2Proof.core.run k s = .next u → ∀ q, u.pendingStore = some q → q.1 ≠ a) :
    t.mem.read a.toNat = s.mem.read a.toNat := by
  induction n generalizing s with
  | zero => cases hrun; rfl
  | succ n ih =>
    obtain ⟨u, hstep, hrest⟩ := run_succ hrun
    rw [ih hrest fun k w hk hw => hother (k + 1) w (by omega) ((run_of_step hstep k).trans hw)]
    exact step_read_of_not_stored hstep (hother 0 s (by omega) (run_zero s))

/-- R550: what a lw delivers to a register other than 0. -/
theorem exec_lw_readReg (s : State) {dst : RegIdx} (hdst : dst ≠ 0) (base : RegIdx) (imm : Imm7) :
    ∃ u, exec (.lw dst base imm) s = .next u ∧ u.readReg dst = s.mem.read (s.effAddr base imm).toNat := by
  refine ⟨_, exec_eq _ s, ?_⟩
  rw [State.readReg_retire, effects, State.readReg_writeReg, if_neg hdst, if_pos rfl, State.memRead,
    State.cacheAccess_mem]

end

/-! ### Memory -/

/-- Settles O31: the store sets the cell, the run keeps it, and the load reads it. -/
theorem loadReturnsTheMostRecentStore : Obligations.LoadReturnsTheMostRecentStore := by
  intro n s s' t a v hstore hstep hrun hother dst base imm hea hdst
  obtain ⟨u, hexec, hread⟩ := exec_lw_readReg t hdst base imm
  refine ⟨u, hexec, ?_⟩
  obtain ⟨hnone, -⟩ | ⟨a', v', hsome, hmem⟩ := step_store_cases hstep
  · simp [hnone] at hstore
  · obtain ⟨rfl, rfl⟩ : a' = a ∧ v' = v := by simpa [hsome] using hstore
    rw [hread, hea, run_read_of_not_stored hrun hother, hmem, Memory.read_write_addr,
      if_pos (Nat.mod_eq_of_lt (Addr.toNat_lt a'))]

/-- Settles O30, by the store a step makes or does not make. -/
theorem onlyStoresChangeMemory : Obligations.OnlyStoresChangeMemory := by
  intro s t hstep x
  obtain ⟨hstore, hmem⟩ | ⟨ea, v, hstore, hmem⟩ := step_store_cases hstep <;> rw [hstore, hmem]
  exact Memory.read_write_addr s.mem ea v x

/-- Settles O32: a sw goes on to `pc + 1`, the cell it has just written. -/
theorem storeIsSeenByTheNextFetch : Obligations.StoreIsSeenByTheNextFetch := by
  intro s value base imm hr hd hea
  have hstep : step s = .next ((effects (.sw value base imm) s).tick.advance (s.pc + 1#16)) := by
    rw [step_of_instr hr hd, exec_eq]
    exact congrArg _ (State.retire_of_not_halts (State.nextPc_not_halting (effects_pc _ s)))
  refine ⟨_, hstep, rfl, by simp [hr], ?_⟩
  rw [State.fetch_eq, State.advance_pc, ← hea, State.advance_mem, State.tick_mem, effects, State.memWrite_mem,
    Memory.read_write_addr, if_pos (Nat.mod_eq_of_lt (Addr.toNat_lt _))]

theorem Memory.lookup_of_mem {m : Memory} (rising : m.Pairwise fun x y => x.1 < y.1) {e : Nat × Word} (he : e ∈ m) :
    m.lookup e.1 = e.2 := by
  induction m with
  | nil => cases he
  | cons x m ih =>
    obtain ⟨hx, hm⟩ := List.pairwise_cons.1 rising
    rw [Memory.lookup_cons]
    obtain rfl | he := List.mem_cons.1 he
    · rw [if_pos rfl]
    · rw [if_neg (hx e he).ne, ih hm he]

theorem Memory.mem_of_lookup_ne_blank {m : Memory} {k : Nat} (h : m.lookup k ≠ Memory.blank) :
    (k, m.lookup k) ∈ m := by
  induction m with
  | nil => exact absurd rfl h
  | cons x m ih =>
    rw [Memory.lookup_cons] at h ⊢
    split at h
    · rename_i hx
      rw [if_pos hx, ← hx]
      exact List.mem_cons_self
    · rename_i hx
      rw [if_neg hx]
      exact List.mem_cons_of_mem _ (ih h)

/-- Every entry of a canonical memory is an entry of each memory that reads alike. -/
theorem Memory.subset_of_read_eq {m n : Memory} (hm : m.wf) (hread : ∀ a, m.read a = n.read a) : m ⊆ n := by
  obtain ⟨rising, cells⟩ := hm
  intro e he
  obtain ⟨hlt, hne⟩ := cells e he
  have hlookup : n.lookup e.1 = e.2 := by
    have := hread e.1
    rw [Memory.read, Memory.read, Nat.mod_eq_of_lt hlt] at this
    rw [← this, Memory.lookup_of_mem rising he]
  have hmem := Memory.mem_of_lookup_ne_blank (hlookup.symm ▸ hne)
  rwa [hlookup] at hmem

/-- Settles O33: the two lists have the same entries in rising order. -/
theorem canonicalMemoriesThatReadAlikeAreEqual : Obligations.CanonicalMemoriesThatReadAlikeAreEqual := by
  intro m n hm hn hread
  have hnodup : ∀ {l : Memory}, l.wf → l.Nodup := fun hl =>
    hl.1.imp fun h e => absurd (congrArg Prod.fst e) h.ne
  have hperm : m.Perm n := (List.perm_ext_iff_of_nodup (hnodup hm) (hnodup hn)).2 fun _ =>
    ⟨fun h => Memory.subset_of_read_eq hm hread h, fun h => Memory.subset_of_read_eq hn (fun a => (hread a).symm) h⟩
  exact hperm.eq_of_pairwise (fun _ _ _ _ h h' => absurd h h'.asymm) hm.1 hn.1

/-! ### The cache hierarchy -/

/-- Settles O35: the lookup decides the status, and distinct tags leave one match. -/
theorem hitExactlyWhenAnOccupiedWayHoldsTheTag : Obligations.HitExactlyWhenAnOccupiedWayHoldsTheTag := by
  intro C k a R
  have hunique : C.Inv → ∀ w v, R.occupiedAt w = true → R.tagAt w = C.cfg.tagOf a →
      R.occupiedAt v = true → R.tagAt v = C.cfg.tagOf a → w = v := fun h w v hw tw hv tv =>
    (h.rowAt _).tags_distinct w v hw hv (tw.trans tv.symm)
  rw [Cache.status_access]
  obtain ⟨w, hw, tw, e⟩ | ⟨new, e⟩ := R.access_cases (C.cfg.tagOf a) <;> rw [e]
  · have hmatch : ∃ w, R.occupiedAt w = true ∧ R.tagAt w = C.cfg.tagOf a := ⟨w, hw, tw⟩
    exact ⟨⟨fun _ => hmatch, fun _ => rfl⟩, ⟨nofun, fun hn => absurd hmatch hn⟩, hunique⟩
  · have hnone : ¬ ∃ w, R.occupiedAt w = true ∧ R.tagAt w = C.cfg.tagOf a := fun ⟨w, hw, tw⟩ => new w hw tw
    exact ⟨⟨nofun, fun hm => absurd hm hnone⟩, ⟨fun _ => hnone, fun _ => rfl⟩, hunique⟩

section
variable {R : Row} {n : Nat}

theorem Row.Inv.erase_order (h : R.Inv n) (w : Nat) : R.order.erase w = R.order.filter (· ≠ w) := by
  rw [h.order_nodup.erase_eq_filter]
  exact List.filter_congr fun v _ => by simp [bne, Bool.beq_eq_decide_eq]

/-- In a row that meets the invariant no other way can answer the lookup. -/
theorem Row.Inv.access_of_match (h : R.Inv n) {w t : Nat} (hw : R.occupiedAt w = true) (ht : R.tagAt w = t) :
    R.access t = (R.promote w, .hit) := by
  obtain ⟨v, hv, tv, e⟩ | ⟨new, -⟩ := R.access_cases t
  · rw [e, h.tags_distinct v w hv hw (tv.trans ht.symm)]
  · exact absurd ht (new w hw)

theorem Row.access_of_no_match {t : Nat} (new : ∀ w, R.occupiedAt w = true → R.tagAt w ≠ t) :
    R.access t = (R.fill R.victim t, .miss) := by
  obtain ⟨w, hw, tw, -⟩ | ⟨-, e⟩ := R.access_cases t
  · exact absurd tw (new w hw)
  · exact e

end

/-- Settles O36: the lookup finds that way, and the row is promoted there. -/
theorem hitPromotesTheWay : Obligations.HitPromotesTheWay := by
  intro C k a w h hw ht
  have haccess := (h.rowAt _).access_of_match hw ht
  refine ⟨by rw [Cache.status_access, haccess], Cache.access_cfg C k a, fun r => ?_⟩
  rw [Cache.rowAt_access C k a (h.rowOf_lt a), haccess]
  split
  · rename_i hr
    rw [hr, ← (h.rowAt _).erase_order, Row.promote]
  · rfl

/-- Settles O37: no way answers the lookup, and the victim is filled. -/
theorem missFillsTheLowestFreeOrTheLeastRecentWay : Obligations.MissFillsTheLowestFreeOrTheLeastRecentWay := by
  intro C k a h R new
  have hR : R.Inv C.cfg.assoc := h.rowAt _
  have hassoc := (CacheCfg.pos_of_wellFormed h.cfg_wellFormed).2.1
  have haccess := Row.access_of_no_match new
  have hchoice : (R.occupiedAt R.victim = false ∧ ∀ w < R.victim, R.occupiedAt w = true) ∨
      ((∀ w < C.cfg.assoc, R.occupiedAt w = true) ∧ R.order.getLast? = some R.victim) := by
    obtain ⟨-, hfree⟩ | ⟨full, -⟩ := R.victim_cases
    · exact .inl hfree
    · exact .inr ⟨hR.ways_length ▸ full, (hR.victim_of_full hassoc full).1⟩
  refine ⟨R.victim, hR.ways_length ▸ hR.victim_lt hassoc, hchoice, congrArg Prod.snd haccess,
    Cache.access_cfg C k a, fun r => ?_⟩
  rw [Cache.rowAt_access C k a (h.rowOf_lt a), ← hR.erase_order]
  exact congrArg (fun Q => if r = C.cfg.rowOf a then Q else C.rowAt r) (congrArg Prod.fst haccess)

/-- A new tag in a list with room keeps every tag. -/
theorem useTag_of_length_lt {n t : Nat} {tags : List Nat} (hnew : t ∉ tags) (hroom : tags.length < n) :
    useTag n t tags = t :: tags := by
  rw [useTag, List.erase_of_not_mem hnew, List.take_of_length_le hroom]

/-- A new tag in a full list puts the last one out, and no other. -/
theorem exists_evicted_of_full {n t : Nat} {tags : List Nat} (hn : 0 < n) (hfull : tags.length = n)
    (hnodup : tags.Nodup) (hnew : t ∉ tags) :
    ∃ e ∈ tags, e ∉ useTag n t tags ∧ ∀ x ∈ tags, x ≠ e → x ∈ useTag n t tags := by
  obtain rfl | ⟨front, e, rfl⟩ := tags.eq_nil_or_concat'
  · exact absurd hfull hn.ne
  · have huse : useTag n t (front ++ [e]) = t :: front := by
      rw [useTag, List.erase_of_not_mem hnew, ← hfull, List.length_append, List.length_singleton,
        List.take_succ_cons, List.take_left]
    have hfront : e ∉ front := fun he => List.disjoint_of_nodup_append hnodup he (List.mem_singleton_self e)
    have het : e ≠ t := fun h => hnew (by simp [h])
    rw [huse]
    refine ⟨e, by simp, by simp [het, hfront], fun x hx hxe => ?_⟩
    obtain hx | hx := List.mem_append.1 hx
    · exact List.mem_cons_of_mem _ hx
    · exact absurd (List.mem_singleton.1 hx) hxe

/-- The tag an access asks for is in its row afterwards (R232, R233). -/
theorem Cache.Inv.tagOf_mem_access {C : Cache} (h : C.Inv) (k : AccessKind) (a : Addr) :
    C.cfg.tagOf a ∈ ((C.access k a).cache.rowAt (C.cfg.rowOf a)).tagsByRecency := by
  have hassoc := (CacheCfg.pos_of_wellFormed h.cfg_wellFormed).2.1
  rw [Cache.rowAt_access C k a (h.rowOf_lt a), if_pos rfl, (h.rowAt _).tagsByRecency_access hassoc, useTag,
    ← Nat.succ_pred_eq_of_pos hassoc]
  exact List.mem_cons_self

/-- Settles O38, on the row's list of tags. -/
theorem missEvictsExactlyWhenTheRowIsFull : Obligations.MissEvictsExactlyWhenTheRowIsFull := by
  intro C k a h hmiss R Q
  have hR : R.Inv C.cfg.assoc := h.rowAt _
  have hassoc := (CacheCfg.pos_of_wellFormed h.cfg_wellFormed).2.1
  have hQ : Q.tagsByRecency = useTag C.cfg.assoc (C.cfg.tagOf a) R.tagsByRecency := by
    rw [← hR.tagsByRecency_access hassoc, ← (Cache.rowAt_access C k a (h.rowOf_lt a) _).trans (if_pos rfl)]
  have hnew : C.cfg.tagOf a ∉ R.tagsByRecency := by
    rw [hR.mem_tagsByRecency]
    exact (hitExactlyWhenAnOccupiedWayHoldsTheTag C k a).2.1.1 hmiss
  refine ⟨h.tagOf_mem_access k a, fun ⟨v, hv, free⟩ t ht => ?_, fun full => ?_⟩ <;> rw [hQ]
  · rw [useTag_of_length_lt hnew (by simpa using hR.order_length_lt hv free)]
    exact List.mem_cons_of_mem _ ht
  · exact exists_evicted_of_full hassoc (R.tagsByRecency_length.trans (hR.order_length_of_full full))
      hR.tagsByRecency_nodup hnew

/-- Settles O41, by the request a step makes or does not make. -/
theorem oneRequestPerLoadOrStoreAndNoOther : Obligations.OneRequestPerLoadOrStoreAndNoOther := by
  intro s t hstep
  obtain ⟨hrequest, hcaches⟩ | ⟨q, hrequest, hcaches⟩ := step_request_cases hstep <;> rw [hrequest]
  · exact hcaches
  · exact hcaches

theorem Cache.Inv.rowAt_accessAll_of_other_rows {C : Cache} (h : C.Inv) {r : Nat} {reqs : List (AccessKind × Addr)}
    (hother : ∀ q ∈ reqs, C.cfg.rowOf q.2 ≠ r) : (C.accessAll reqs).rowAt r = C.rowAt r := by
  induction reqs using List.reverseRecOn with
  | nil => rfl
  | append_singleton reqs q ih =>
    have hq : r ≠ C.cfg.rowOf q.2 := (hother q (by simp)).symm
    rw [Cache.accessAll_concat, Cache.rowAt_access _ _ _ ((h.accessAll reqs).rowOf_lt _), Cache.accessAll_cfg,
      if_neg hq, ih fun p hp => hother p (by simp [hp])]

/-- Settles O44: the first access leaves the tag in the row, and no access to another row takes it out. -/
theorem repeatedAccessHits : Obligations.RepeatedAccessHits := by
  intro C k1 k2 a b between h hblock hother
  obtain ⟨hrow, htag⟩ := (C.cfg.rowOf_tagOf_eq_iff a b).2 hblock
  have hrowAt := (h.access k1 a).rowAt_accessAll_of_other_rows hother
  have hcfg : ((C.access k1 a).cache.accessAll between).cfg = C.cfg := by simp
  have hmem := h.tagOf_mem_access k1 a
  rw [((h.access k1 a).rowAt _).mem_tagsByRecency] at hmem
  refine (hitExactlyWhenAnOccupiedWayHoldsTheTag _ k2 b).1.2 ?_
  rw [hcfg, ← hrow, ← htag, hrowAt]
  exact hmem

/-- Settles O39: an access does not look at its kind (R235). -/
theorem storeAccessIsLikeLoadAccess : Obligations.StoreAccessIsLikeLoadAccess :=
  ⟨fun _ _ => rfl, fun _ _ _ => rfl⟩

/-- Settles O40, by the L1 status and L2's presence. -/
theorem l2IsQueriedExactlyOnL1Miss : Obligations.L2IsQueriedExactlyOnL1Miss := by
  intro s kind a pc t r1 rec1
  refine ⟨s.cacheAccess_l1 _, ?_⟩
  obtain ⟨hhit, e⟩ | ⟨hmiss, hnone, e⟩ | ⟨c, hmiss, hsome, e⟩ := s.cacheAccess_cases ⟨kind, a, pc⟩ <;>
    rw [show t = _ from e]
  · have hnot : r1.status ≠ .miss := fun h => nomatch hhit.symm.trans h
    exact ⟨fun _ => ⟨rfl, rfl⟩, fun h => absurd h hnot, fun _ h => absurd h hnot⟩
  · have hnot : r1.status ≠ .hit := fun h => nomatch hmiss.symm.trans h
    exact ⟨fun h => absurd h hnot, fun _ _ => ⟨hnone, rfl⟩, fun c _ h => absurd h (by simp [hnone])⟩
  · have hnot : r1.status ≠ .hit := fun h => nomatch hmiss.symm.trans h
    refine ⟨fun h => absurd h hnot, fun _ h => absurd h (by simp [hsome]), fun c' _ hc' => ?_⟩
    obtain rfl : c = c' := Option.some.inj (hsome.symm.trans hc')
    exact ⟨rfl, List.append_assoc _ _ _⟩

/-! ### Records' text -/

/-- Settles O47 by computing the three texts (R253, R254). -/
theorem recordTextOfTheWorkedExamples : Obligations.RecordTextOfTheWorkedExamples := by
  refine ⟨?_, ?_, ?_⟩ <;> decide

end Sys2Proof.Machine

/-! ## Encoding, decoding and the assembler (spec/30_encoding.md)

R320's table is read once as a relation between words and what they decode to; the decoder computes that relation, and
the laws of decoding are case splits over its rows. Each format of R306 is the word's fields, one after the other. -/

namespace Sys2Proof

/-! ### The decoder as R320's table -/

/-- What a word decodes to, row by row of R320: a row fixes the opcode and, in the three-register group, the function
code. R330: an unassigned function code of that group is `Reserved`. -/
inductive DecodesTo (w : Word) : Decoded → Prop
  | add (op : opcodeOf w = opRegister) (fn : funcOf w = fnAdd) :
    DecodesTo w (.instr (.add (fieldD w) (fieldA w) (fieldB w)))
  | sub (op : opcodeOf w = opRegister) (fn : funcOf w = fnSub) :
    DecodesTo w (.instr (.sub (fieldD w) (fieldA w) (fieldB w)))
  | or (op : opcodeOf w = opRegister) (fn : funcOf w = fnOr) :
    DecodesTo w (.instr (.or (fieldD w) (fieldA w) (fieldB w)))
  | and (op : opcodeOf w = opRegister) (fn : funcOf w = fnAnd) :
    DecodesTo w (.instr (.and (fieldD w) (fieldA w) (fieldB w)))
  | slt (op : opcodeOf w = opRegister) (fn : funcOf w = fnSlt) :
    DecodesTo w (.instr (.slt (fieldD w) (fieldA w) (fieldB w)))
  | jr (op : opcodeOf w = opRegister) (fn : funcOf w = fnJr) : DecodesTo w (.instr (.jr (fieldA w)))
  | addi (op : opcodeOf w = opAddi) : DecodesTo w (.instr (.addi (fieldB w) (fieldA w) (imm7Of w)))
  | j (op : opcodeOf w = opJ) : DecodesTo w (.instr (.j (imm13Of w)))
  | jal (op : opcodeOf w = opJal) : DecodesTo w (.instr (.jal (imm13Of w)))
  | lw (op : opcodeOf w = opLw) : DecodesTo w (.instr (.lw (fieldB w) (fieldA w) (imm7Of w)))
  | sw (op : opcodeOf w = opSw) : DecodesTo w (.instr (.sw (fieldB w) (fieldA w) (imm7Of w)))
  | jeq (op : opcodeOf w = opJeq) : DecodesTo w (.instr (.jeq (fieldA w) (fieldB w) (imm7Of w)))
  | slti (op : opcodeOf w = opSlti) : DecodesTo w (.instr (.slti (fieldB w) (fieldA w) (imm7Of w)))
  | reserved (op : opcodeOf w = opRegister) (fn : funcOf w ∉ [fnAdd, fnSub, fnOr, fnAnd, fnSlt, fnJr]) :
    DecodesTo w (.reserved (funcOf w))

theorem decodesTo_decodeRegister {w : Word} (op : opcodeOf w = opRegister) : DecodesTo w (decodeRegister w) := by
  unfold decodeRegister
  split_ifs with hAdd hSub hOr hAnd hSlt hJr
  · exact .add op hAdd
  · exact .sub op hSub
  · exact .or op hOr
  · exact .and op hAnd
  · exact .slt op hSlt
  · exact .jr op hJr
  · exact .reserved op (by simp [hAdd, hSub, hOr, hAnd, hSlt, hJr])

theorem eq_opSlti_of_not_mem :
    ∀ op : Opcode, op ∉ [opRegister, opAddi, opJ, opJal, opLw, opSw, opJeq] → op = opSlti := by decide

/-- The decoder's last branch is the row of slti, because the other seven opcodes are taken. -/
theorem decodesTo_decode (w : Word) : DecodesTo w (decode w) := by
  unfold decode
  split_ifs with hRegister hAddi hJ hJal hLw hSw hJeq
  · exact decodesTo_decodeRegister hRegister
  · exact .addi hAddi
  · exact .j hJ
  · exact .jal hJal
  · exact .lw hLw
  · exact .sw hSw
  · exact .jeq hJeq
  · exact .slti (eq_opSlti_of_not_mem _ (by simp [hRegister, hAddi, hJ, hJal, hLw, hSw, hJeq]))

theorem DecodesTo.decode_eq {w : Word} {d : Decoded} (h : DecodesTo w d) : decode w = d := by
  cases h with
  | add op fn | sub op fn | or op fn | and op fn | slt op fn | jr op fn => simp [decode, decodeRegister, op, fn]
  | addi op | j op | jal op | lw op | sw op | jeq op | slti op => simp [decode, op]
  | reserved op fn =>
    simp only [List.mem_cons, not_or] at fn
    simp [decode, decodeRegister, op, fn]

/-- The decoder computes R320's table. -/
theorem decode_eq_iff {w : Word} {d : Decoded} : decode w = d ↔ DecodesTo w d :=
  ⟨fun h => h ▸ decodesTo_decode w, DecodesTo.decode_eq⟩

/-- Settles O1: in each format the opcode, the function code and every operand are read back from where the encoder
put them. -/
theorem decodeOfEncodeIsTheInstruction : Obligations.DecodeOfEncodeIsTheInstruction := by
  intro i
  cases i with
  | add d a b | sub d a b | or d a b | and d a b | slt d a b | jr a =>
    simp [encode, decode, decodeRegister, opcodeOf_encodeR, funcOf_encodeR, fieldA_encodeR, fieldB_encodeR,
      fieldD_encodeR]
  | addi b a imm | lw b a imm | sw b a imm | jeq a b imm | slti b a imm =>
    simp [encode, decode, opcodeOf_encodeI, fieldA_encodeI, fieldB_encodeI, imm7Of_encodeI]
  | j imm | jal imm => simp [encode, decode, opcodeOf_encodeJ, imm13Of_encodeJ]

/-- Settles O4: one row of the relation, and no other, answers `Reserved`. -/
theorem reservedExactlyUnassignedFunctionCodes : Obligations.ReservedExactlyUnassignedFunctionCodes := by
  intro w f
  rw [decode_eq_iff]
  constructor
  · intro h
    cases h with
    | reserved op fn => exact ⟨op, rfl, fn⟩
  · rintro ⟨op, rfl, fn⟩
    exact .reserved op fn

/-- Settles O6 by decoding the twelve words. -/
theorem writtenWordsDecode : Obligations.WrittenWordsDecode := by
  unfold Obligations.WrittenWordsDecode
  decide

/-! ### The formats (R306) -/

theorem regBits_fieldA (w : Word) : regBits (fieldA w) = w.extractLsb' 10 3 := rfl

theorem regBits_fieldB (w : Word) : regBits (fieldB w) = w.extractLsb' 7 3 := rfl

theorem regBits_fieldD (w : Word) : regBits (fieldD w) = w.extractLsb' 4 3 := rfl

theorem encodeR_fields {w : Word} {f : FuncCode} (op : opcodeOf w = opRegister) (fn : funcOf w = f) :
    encodeR (fieldA w) (fieldB w) (fieldD w) f = w := by
  rw [encodeR, ← op, ← fn, regBits_fieldA, regBits_fieldB, regBits_fieldD, opcodeOf, funcOf]
  ext k hk
  simp only [BitVec.getElem_append]
  interval_cases k <;> simp

/-- R331: of a jr only the opcode, A and the function code are used. -/
theorem encodeR_fieldA_zero_zero {w : Word} {f : FuncCode} (op : opcodeOf w = opRegister) (fn : funcOf w = f) :
    encodeR (fieldA w) 0 0 f = w &&& 0xFC0F#16 := by
  rw [encodeR, ← op, ← fn, regBits_fieldA, show regBits 0 = 0#3 from rfl, opcodeOf, funcOf]
  ext k hk
  simp only [BitVec.getElem_and, BitVec.getElem_append]
  interval_cases k <;> simp

theorem encodeI_fields (w : Word) : encodeI (opcodeOf w) (fieldA w) (fieldB w) (imm7Of w) = w := by
  rw [encodeI, regBits_fieldA, regBits_fieldB, opcodeOf, imm7Of]
  ext k hk
  simp only [BitVec.getElem_append]
  interval_cases k <;> simp

theorem encodeJ_fields (w : Word) : encodeJ (opcodeOf w) (imm13Of w) = w := by
  rw [encodeJ, opcodeOf, imm13Of]
  ext k hk
  simp only [BitVec.getElem_append]
  interval_cases k <;> simp

/-- Settles O2, format by format of the row the word decodes by; jr's row alone does not use all of the word. -/
theorem encodeOfDecodeKeepsEveryUsedBit : Obligations.EncodeOfDecodeKeepsEveryUsedBit := by
  intro w i h
  cases decode_eq_iff.1 h with
  | add op fn | sub op fn | or op fn | and op fn | slt op fn =>
    simpa [encode, Instr.mnemonic] using encodeR_fields op fn
  | jr op fn => simpa [encode, Instr.mnemonic] using encodeR_fieldA_zero_zero op fn
  | addi op | lw op | sw op | jeq op | slti op => simpa [encode, Instr.mnemonic, op] using encodeI_fields w
  | j op | jal op => simpa [encode, Instr.mnemonic, op] using encodeJ_fields w

theorem toNat_extractLsb'_eq (w : Word) (i n : Nat) : (w.extractLsb' i n).toNat = w.toNat / 2 ^ i % 2 ^ n := by
  rw [BitVec.extractLsb'_toNat, Nat.shiftRight_eq_div_pow]

/-- Settles O5: each field is a quotient of the word's number by its place, modulo its range. -/
theorem formatsAreTheWholeWord : Obligations.FormatsAreTheWholeWord := by
  intro w
  have hw := Word.toNat_lt w
  have hop : (opcodeOf w).toNat = w.toNat / 2 ^ 13 % 2 ^ 3 := toNat_extractLsb'_eq w 13 3
  have hA : (fieldA w).val = w.toNat / 2 ^ 10 % 2 ^ 3 := toNat_extractLsb'_eq w 10 3
  have hB : (fieldB w).val = w.toNat / 2 ^ 7 % 2 ^ 3 := toNat_extractLsb'_eq w 7 3
  have hD : (fieldD w).val = w.toNat / 2 ^ 4 % 2 ^ 3 := toNat_extractLsb'_eq w 4 3
  have hfn : (funcOf w).toNat = w.toNat / 2 ^ 0 % 2 ^ 4 := toNat_extractLsb'_eq w 0 4
  have himm7 : (imm7Of w).toNat = w.toNat / 2 ^ 0 % 2 ^ 7 := toNat_extractLsb'_eq w 0 7
  have himm13 : (imm13Of w).toNat = w.toNat / 2 ^ 0 % 2 ^ 13 := toNat_extractLsb'_eq w 0 13
  rw [hop, hA, hB, hD, hfn, himm7, himm13]
  refine ⟨?_, ?_, ?_⟩ <;> omega

/-! ### The opcode table (R320) -/

/-- A row of the three-register group: its pattern is its function code. -/
def registerRow (mnemonic : String) (f : FuncCode) : OpRow := ⟨mnemonic, f.setWidth 16, 0xE00F#16⟩

/-- A row selected by the opcode alone. -/
def opcodeRow (mnemonic : String) (op : Opcode) : OpRow := ⟨mnemonic, op.setWidth 16 <<< 13, 0xE000#16⟩

theorem opcodeTable_eq : opcodeTable =
    [registerRow "add" fnAdd, registerRow "sub" fnSub, registerRow "or" fnOr, registerRow "and" fnAnd,
      registerRow "slt" fnSlt, registerRow "jr" fnJr, opcodeRow "addi" opAddi, opcodeRow "j" opJ,
      opcodeRow "jal" opJal, opcodeRow "lw" opLw, opcodeRow "sw" opSw, opcodeRow "jeq" opJeq,
      opcodeRow "slti" opSlti] := by decide

@[simp] theorem registerRow_mnemonic (m : String) (f : FuncCode) : (registerRow m f).mnemonic = m := rfl

@[simp] theorem opcodeRow_mnemonic (m : String) (op : Opcode) : (opcodeRow m op).mnemonic = m := rfl

/-- The opcode and the function code do not overlap. -/
theorem shiftLeft_or_setWidth_eq_iff (op : Opcode) (f g : FuncCode) :
    op.setWidth 16 <<< 13 ||| f.setWidth 16 = g.setWidth 16 ↔ op = opRegister ∧ f = g := by
  have hsum : ∀ (op : Opcode) (f : FuncCode),
      (op.setWidth 16 <<< 13 ||| f.setWidth 16).toNat = op.toNat * 8192 + f.toNat := by decide
  have hg : (g.setWidth 16).toNat = g.toNat := BitVec.toNat_setWidth_of_le (by decide)
  have hlt : g.toNat < 16 := g.isLt
  rw [← BitVec.toNat_inj, hsum, hg, ← BitVec.toNat_inj, ← BitVec.toNat_inj, show opRegister.toNat = 0 from rfl]
  omega

@[simp] theorem registerRow_matchesWord (m : String) (f : FuncCode) (w : Word) :
    (registerRow m f).matchesWord w = true ↔ opcodeOf w = opRegister ∧ funcOf w = f := by
  rw [OpRow.matchesWord, registerRow, and_func_mask, beq_iff_eq, shiftLeft_or_setWidth_eq_iff]

@[simp] theorem opcodeRow_matchesWord (m : String) (op : Opcode) (w : Word) :
    (opcodeRow m op).matchesWord w = true ↔ opcodeOf w = op := by
  have hinj : ∀ p q : Opcode, p.setWidth 16 <<< 13 = q.setWidth 16 <<< 13 ↔ p = q := by decide
  rw [OpRow.matchesWord, opcodeRow, and_opcode_mask, beq_iff_eq, hinj]

/-- Settles O3: the row the word decodes by settles each row's test of opcode and function code. -/
theorem decoderFollowsOpcodeTable : Obligations.DecoderFollowsOpcodeTable := by
  intro w
  rw [opcodeTable_eq]
  refine ⟨fun i h => ?_, fun f h => ?_⟩
  · cases decode_eq_iff.1 h with
    | add op fn | sub op fn | or op fn | and op fn | slt op fn | jr op fn => simp [op, fn, Instr.mnemonic]
    | addi op | j op | jal op | lw op | sw op | jeq op | slti op => simp [op, Instr.mnemonic]
  · cases decode_eq_iff.1 h with
    | reserved op fn =>
      simp only [List.mem_cons, not_or] at fn
      simp [op, fn]

end Sys2Proof

namespace Sys2Proof.Machine

/-! ### Immediates (R310, R311) -/

/-- Settles O7: bits 15 to 7 of a sign extension are the immediate's own top bit. -/
theorem immediatesAreExtended : Obligations.ImmediatesAreExtended := by
  refine ⟨fun v => ⟨BitVec.toInt_signExtend_of_le (by decide), BitVec.le_toInt v,
    Int.le_of_lt_add_one BitVec.toInt_lt, fun k hk => ?_⟩,
    fun v => ⟨BitVec.toNat_setWidth_of_le (by decide), Nat.le_of_lt_succ v.isLt⟩⟩
  rw [sext16, BitVec.getLsbD_signExtend]
  simp [hk, BitVec.msb_eq_getLsbD_last]

/-! ### The assembler (R340, R341) -/

section

variable {syms : AsmSymbols} {pc : Nat}

theorem AsmItem.word_of_instr {item : AsmItem} {i : Instr} (h : item.instr syms pc = some i) :
    item.word syms pc = some (encode i) := by
  cases item with
  | fill v => cases h
  | _ => exact congrArg (Option.map encode) h

theorem AsmItem.assembles_of_instr {item : AsmItem} {i : Instr} (h : item.instr syms pc = some i) :
    item.Assembles syms pc i :=
  ⟨encode i, word_of_instr h, decodeOfEncodeIsTheInstruction i⟩

theorem asmR_val (make : RegIdx → RegIdx → RegIdx → Instr) (d a b : RegIdx) :
    asmR make d.val a.val b.val = some (make d a b) := by
  simp [asmR]

theorem asmI_of_range (make : RegIdx → RegIdx → Imm7 → Instr) (r1 r2 : RegIdx) {v : Int} (h0 : -64 ≤ v)
    (h1 : v ≤ 63) : asmI make r1.val r2.val (some v) = some (make r1 r2 (BitVec.ofInt 7 v)) := by
  simp [asmI, asmImm7_of_range h0 h1]

theorem AsmValue.StandsFor.asmImm13_eq {x : AsmValue} {v : Int} (hx : x.StandsFor syms v) (h0 : 0 ≤ v)
    (h1 : v ≤ 8191) : (x.resolve syms).bind asmImm13 = some (BitVec.ofInt 13 v) := by
  rw [hx.resolve_eq]
  exact asmImm13_of_range h0 (Int.lt_add_one_of_le h1)

theorem AsmItem.instr_halt (h : pc ≤ 8191) : AsmItem.halt.instr syms pc = some (.j (BitVec.ofNat 13 pc)) := by
  rw [AsmItem.instr, asmImm13_of_range (by omega) (by omega), BitVec.ofInt_natCast]
  rfl

end

/-- Settles O54: each form with its operands in range stands for its instruction, whose word decodes to it. -/
theorem assembledWordDecodesToTheItem : Obligations.AssembledWordDecodesToTheItem := by
  intro syms pc
  refine ⟨fun d a b => ?register, fun a => ?jr, fun b a x v hx h0 h1 => ?imm7, fun a b x v hx h0 h1 => ?jeq,
    fun x v hx h0 h1 => ?imm13, rfl, AsmItem.assembles_of_instr rfl,
    fun h => AsmItem.assembles_of_instr (AsmItem.instr_halt h), fun x v hx h0 h1 => ?fill⟩
  case register => refine ⟨?_, ?_, ?_, ?_, ?_⟩ <;> exact AsmItem.assembles_of_instr (asmR_val ..)
  case jr => exact AsmItem.assembles_of_instr (by rw [AsmItem.instr, asmReg_val]; rfl)
  case imm7 =>
    have himm (make : RegIdx → RegIdx → Imm7 → Instr) (r1 r2 : RegIdx) :
        asmI make r1.val r2.val (x.resolve syms) = some (make r1 r2 (BitVec.ofInt 7 v)) := by
      rw [hx.resolve_eq, asmI_of_range make r1 r2 h0 h1]
    exact ⟨AsmItem.assembles_of_instr (himm .addi b a), AsmItem.assembles_of_instr (himm .slti b a),
      AsmItem.assembles_of_instr (himm .lw b a), AsmItem.assembles_of_instr (himm .sw b a),
      AsmItem.assembles_of_instr (himm .addi b 0)⟩
  case jeq =>
    apply AsmItem.assembles_of_instr
    rw [AsmItem.instr, hx.resolve_eq]
    exact asmI_of_range _ _ _ h0 h1
  case imm13 =>
    have himm := hx.asmImm13_eq h0 h1
    exact ⟨AsmItem.assembles_of_instr (congrArg (Option.map Instr.j) himm),
      AsmItem.assembles_of_instr (congrArg (Option.map Instr.jal) himm)⟩
  case fill =>
    rw [AsmItem.word, hx.resolve_eq]
    exact asmWord_of_range h0 (Int.lt_add_one_of_le h1)

/-- Settles O55: the lines are assembled from address 0. -/
theorem assembledProgramIsItsLinesInOrder : Obligations.AssembledProgramIsItsLinesInOrder := by
  refine fun lines => ⟨fun ws => ?_, fun k l name hl hn first => .inr ⟨name, k, rfl, ?_, rfl⟩⟩
  · exact (asmWordsFrom_eq_some_iff (pc := 0)).trans (by simp only [Nat.zero_add])
  · rw [lookup_asmSymbolsFrom hl hn first, Nat.zero_add]

/-- Settles O56: the word is the j to its own address, which R131's halt test meets. -/
theorem haltPseudoInstructionHalts : Obligations.HaltPseudoInstructionHalts := by
  intro s hr hpc hw
  rw [AsmItem.word_of_instr (AsmItem.instr_halt (Nat.le_of_lt_succ hpc))] at hw
  have hd : decode s.fetch = .instr (.j (BitVec.ofNat 13 s.pc.toNat)) := by
    rw [← Option.some.inj hw, decodeOfEncodeIsTheInstruction]
  have hhalt : s.haltsAt (zext16 (BitVec.ofNat 13 s.pc.toNat)) = true := by
    rw [State.haltsAt_iff_eq, zext16, BitVec.ofNat_toNat]
  rw [step_of_instr hr hd, exec_eq]
  exact congrArg _ (State.retire_of_halts hhalt)

end Sys2Proof.Machine

/-! ## The three-register group (spec/40_register_register.md)

The finish of an instruction is read once in the terms of the statements: what it transfers to, where it goes on and
what it keeps. The five instructions that write a register are one shape, `State.writeAndNext`, with one law; jr is the
finish alone. -/

namespace Sys2Proof.Machine

/-! ### The words of a function code (R320) -/

theorem and_func_mask_eq_setWidth_iff (w : Word) (f : FuncCode) :
    w &&& 0xE00F#16 = f.setWidth 16 ↔ opcodeOf w = opRegister ∧ funcOf w = f := by
  rw [and_func_mask, shiftLeft_or_setWidth_eq_iff]

/-- A row of R320's relation that a function code selects, read as the row's words. -/
theorem wordsDecodeTo_of_funcCode {f : FuncCode} {i : Word → Instr}
    (row : ∀ w, opcodeOf w = opRegister → funcOf w = f → DecodesTo w (.instr (i w))) :
    WordsDecodeTo (f.setWidth 16) 0xE00F#16 i := by
  intro w hw
  obtain ⟨op, fn⟩ := (and_func_mask_eq_setWidth_iff w f).1 hw
  exact (row w op fn).decode_eq

/-! ### The finish of an instruction (R130 … R133) -/

section
variable {s t : State}

/-- R131, R132: the effects before the finish moved neither pc, step count nor status. -/
theorem State.retire_transferred (hpc : t.pc = s.pc) (hsteps : t.steps = s.steps) (hstatus : t.status = s.status)
    (p : Word) : Transferred s (t.retire p) p := by
  have hhalts : t.haltsAt p = true ↔ p.toNat = s.pc.toNat % 8192 := by rw [State.haltsAt_iff, hpc]
  refine ⟨by rw [State.retire_steps, hsteps], fun h => ?halts, fun h => ?goesOn⟩
  case halts => simp [State.retire_status, State.retire_pc, hhalts.2 h, hpc]
  case goesOn => simp [State.retire_status, State.retire_pc, mt hhalts.1 h, hstatus]

/-- R133: a transfer to `pc + 1` is never the self-jump. -/
theorem State.retire_nextPc_wentOn (hpc : t.pc = s.pc) (hsteps : t.steps = s.steps) (hstatus : t.status = s.status) :
    WentOn s (t.retire s.nextPc) := by
  obtain ⟨counted, -, goesOn⟩ := State.retire_transferred hpc hsteps hstatus s.nextPc
  have hne : s.nextPc.toNat ≠ s.pc.toNat % 8192 := by
    rw [ne_eq, ← State.haltsAt_iff, Bool.not_eq_true]
    exact State.nextPc_not_halting rfl
  obtain ⟨status, pc⟩ := goesOn hne
  exact ⟨pc, counted, status⟩

theorem SameMemory.retire (h : SameMemory s t) (p : Word) : SameMemory s (t.retire p) := by
  simpa [SameMemory] using h

theorem SameCaches.retire (h : SameCaches s t) (p : Word) : SameCaches s (t.retire p) := by
  simpa [SameCaches] using h

theorem SameRegs.retire (h : SameRegs s t) (p : Word) : SameRegs s (t.retire p) := by
  simpa [SameRegs] using h

theorem RegResult.retire {d : RegIdx} {v : Word} (h : RegResult s t d v) (p : Word) :
    RegResult s (t.retire p) d v := by
  simpa [RegResult] using h

end

/-! ### Writing one register and going on to `pc + 1` (R112) -/

theorem State.writeReg_regResult (s : State) (d : RegIdx) (v : Word) : RegResult s (s.writeReg d v) d v :=
  s.readReg_writeReg d v

theorem State.writeReg_sameMemory (s : State) (d : RegIdx) (v : Word) : SameMemory s (s.writeReg d v) :=
  fun _ => rfl

theorem State.writeReg_sameCaches (s : State) (d : RegIdx) (v : Word) : SameCaches s (s.writeReg d v) :=
  ⟨rfl, rfl, rfl, rfl⟩

/-- Completion, result and frame of every instruction of this shape: add, sub, or, and, slt, addi, slti. -/
theorem State.writeAndNext_completes (s : State) (d : RegIdx) (v : Word) :
    ∃ t, s.writeAndNext d v = .next t ∧ RegResult s t d v ∧ WentOn s t ∧ SameMemory s t ∧ SameCaches s t :=
  ⟨_, rfl, (s.writeReg_regResult d v).retire _, State.retire_nextPc_wentOn rfl rfl rfl,
    (s.writeReg_sameMemory d v).retire _, (s.writeReg_sameCaches d v).retire _⟩

/-- R404, R451: the comparison on integers or on naturals, by `SLT_SIGNED`. -/
theorem State.setLess_eq (s : State) (a b : Word) :
    s.setLess a b =
      if (if s.params.sltSigned = true then a.toInt < b.toInt else a.toNat < b.toNat) then 1#16 else 0#16 := by
  rw [State.setLess, lessThan]
  cases s.params.sltSigned
  case false => simp [BitVec.ult_eq_decide]
  case true => simp [BitVec.slt_eq_decide]

/-! ### The six instructions -/

/-- Settles O8: the register write and go-on law, at the sum. -/
theorem addWritesTheSum : Obligations.AddWritesTheSum :=
  ⟨wordsDecodeTo_of_funcCode (f := fnAdd) fun _ => .add, fun d _ _ s => s.writeAndNext_completes d _⟩

/-- Settles O9: the register write and go-on law, at the difference A - B. -/
theorem subWritesAMinusB : Obligations.SubWritesAMinusB :=
  ⟨wordsDecodeTo_of_funcCode (f := fnSub) fun _ => .sub, fun d _ _ s => s.writeAndNext_completes d _⟩

/-- Settles O10: the register write and go-on law, at the bitwise or. -/
theorem orWritesTheBitwiseOr : Obligations.OrWritesTheBitwiseOr :=
  ⟨wordsDecodeTo_of_funcCode (f := fnOr) fun _ => .or, fun d _ _ s => s.writeAndNext_completes d _⟩

/-- Settles O11: the register write and go-on law, at the bitwise and. -/
theorem andWritesTheBitwiseAnd : Obligations.AndWritesTheBitwiseAnd :=
  ⟨wordsDecodeTo_of_funcCode (f := fnAnd) fun _ => .and, fun d _ _ s => s.writeAndNext_completes d _⟩

/-- Settles O12: the same law, the value written being the comparison `State.setLess` makes. -/
theorem sltWritesTheComparison : Obligations.SltWritesTheComparison := by
  refine ⟨wordsDecodeTo_of_funcCode (f := fnSlt) fun _ => .slt, fun d a b s => ?_⟩
  rw [← State.setLess_eq]
  exact s.writeAndNext_completes d _

/-- Settles O13: jr has no effect of its own, and its finish reads all of `new_pc`. -/
theorem jrJumpsToTheRegister : Obligations.JrJumpsToTheRegister :=
  ⟨wordsDecodeTo_of_funcCode (f := fnJr) fun _ => .jr, fun a s =>
    ⟨_, rfl, State.retire_transferred rfl rfl rfl (s.readReg a), SameRegs.retire (fun _ => rfl) _,
      SameMemory.retire (fun _ => rfl) _, SameCaches.retire ⟨rfl, rfl, rfl, rfl⟩ _⟩⟩

end Sys2Proof.Machine

/-! ## The register-immediate group (spec/41_immediate_arith.md)

addi and slti are `State.writeAndNext` of a value computed from the source and the sign-extended immediate; the words of
a row that an opcode alone selects are read once, as those of a function code are. -/

namespace Sys2Proof.Machine

/-! ### The words of an opcode (R320) -/

theorem and_opcode_mask_eq_shiftLeft_iff (w : Word) (op : Opcode) :
    w &&& 0xE000#16 = op.setWidth 16 <<< 13 ↔ opcodeOf w = op := by
  rw [← opcodeRow_matchesWord "" op w, OpRow.matchesWord, opcodeRow, beq_iff_eq]

/-- A row of R320's relation that the opcode alone selects, read as the row's words. -/
theorem wordsDecodeTo_of_opcode {op : Opcode} {i : Word → Instr}
    (row : ∀ w, opcodeOf w = op → DecodesTo w (.instr (i w))) :
    WordsDecodeTo (op.setWidth 16 <<< 13) 0xE000#16 i :=
  fun w hw => (row w ((and_opcode_mask_eq_shiftLeft_iff w op).1 hw)).decode_eq

/-! ### The two instructions -/

/-- Settles O14: the register write and go-on law, at the sum with the sign-extended immediate. -/
theorem addiWritesTheSum : Obligations.AddiWritesTheSum :=
  ⟨wordsDecodeTo_of_opcode (op := opAddi) fun _ => .addi, fun b _ _ s => s.writeAndNext_completes b _⟩

/-- Settles O15: the same law, at `State.setLess` of the sign-extended immediate; R310 keeps the immediate's value, so
the signed comparison is with the immediate itself. -/
theorem sltiWritesTheComparison : Obligations.SltiWritesTheComparison := by
  refine ⟨wordsDecodeTo_of_opcode (op := opSlti) fun _ => .slti, fun b a imm s => ?_⟩
  have himm : imm.toInt = (imm.signExtend 16).toInt := (immediatesAreExtended.1 imm).1.symm
  rw [himm, ← State.setLess_eq]
  exact s.writeAndNext_completes b _

end Sys2Proof.Machine

/-! ## The jumps and the branch (spec/42_jumps_branches.md)

j and jeq have no effect of their own, so the finish gives their completion and their frame; jal writes the link
register before it. -/

namespace Sys2Proof.Machine

/-- R101, R132: the finish clears register 0's slot, which no read sees. -/
theorem State.retire_frame (s : State) (p : Word) :
    SameRegs s (s.retire p) ∧ SameMemory s (s.retire p) ∧ SameCaches s (s.retire p) :=
  ⟨SameRegs.retire (fun _ => rfl) p, SameMemory.retire (fun _ => rfl) p, SameCaches.retire ⟨rfl, rfl, rfl, rfl⟩ p⟩

/-! ### The three instructions -/

/-- Settles O16: j is the finish alone, at the zero-extended immediate. -/
theorem jJumpsToTheAbsoluteTarget : Obligations.JJumpsToTheAbsoluteTarget :=
  ⟨wordsDecodeTo_of_opcode (op := opJ) fun _ => .j, fun imm s =>
    ⟨_, rfl, State.retire_transferred rfl rfl rfl (zext16 imm), s.retire_frame _⟩⟩

/-- Settles O17: the link is an effect before the finish, so halting and going on both keep it. -/
theorem jalLinksAndJumps : Obligations.JalLinksAndJumps :=
  ⟨wordsDecodeTo_of_opcode (op := opJal) fun _ => .jal, fun imm s =>
    ⟨_, rfl, (s.writeReg_regResult linkReg s.nextPc).retire _, State.retire_transferred rfl rfl rfl (zext16 imm),
      (s.writeReg_sameMemory _ _).retire _, (s.writeReg_sameCaches _ _).retire _⟩⟩

/-- Settles O18: jeq is the finish alone, a transfer to the branch target if the registers are equal and the going on
of R133 if they differ. -/
theorem jeqBranchesIfEqual : Obligations.JeqBranchesIfEqual := by
  refine ⟨wordsDecodeTo_of_opcode (op := opJeq) fun _ => .jeq, fun a b imm s =>
    ⟨_, rfl, fun heq => ?taken, fun hne => ?notTaken, s.retire_frame _⟩⟩
  case taken =>
    rw [if_pos heq]
    exact State.retire_transferred rfl rfl rfl (s.branchTarget imm)
  case notTaken =>
    rw [if_neg hne]
    exact State.retire_nextPc_wentOn rfl rfl rfl

end Sys2Proof.Machine

/-! ## The loads and stores (spec/43_load_store.md)

lw and sw are one request to the hierarchy, one write of their own (a register, a cell) and the going on to `pc + 1`.
The request is seen by no register, no cell, no pc (R243), so their result and frame are those of the write. -/

namespace Sys2Proof.Machine

/-! ### The effective address (R549) -/

/-- R310: the 16 bits of a sign-extended immediate stand for the immediate modulo 2^16. -/
theorem toNat_sext16 (imm : Imm7) : ((sext16 imm).toNat : Int) = imm.toInt % 65536 := by
  rw [sext16, BitVec.signExtend, BitVec.toNat_ofInt]
  exact Int.toNat_of_nonneg (Int.emod_nonneg _ (by decide))

/-- R549: 8192 divides 2^16, so the 16-bit sum loses nothing of the address. -/
theorem State.toNat_effAddr (s : State) (base : RegIdx) (imm : Imm7) :
    (s.effAddr base imm).toNat = ((s.readReg base).toNat + (sext16 imm).toNat) % 8192 := by
  rw [State.effAddr, BitVec.toNat_setWidth, Word.toNat_add]
  exact Nat.mod_mod_of_dvd _ (by decide)

/-- Settles O19: both reductions modulo 2^16, of the immediate and of the sum, vanish modulo 8192. -/
theorem effectiveAddressIsTheSumModulo8192 : Obligations.EffectiveAddressIsTheSumModulo8192 := by
  intro s a imm
  have himm := toNat_sext16 imm
  rw [State.toNat_effAddr]
  omega

/-! ### What a request leaves to the write that follows it (R243, R570) -/

@[simp] theorem State.readReg_cacheAccess (s : State) (q : CacheRequest) (r : RegIdx) :
    (s.cacheAccess q).readReg r = s.readReg r :=
  State.readReg_congr (s.cacheAccess_regs q) r

section
variable {s t : State} {q : CacheRequest}

theorem RegResult.of_cacheAccess {d : RegIdx} {v : Word} (h : RegResult (s.cacheAccess q) t d v) :
    RegResult s t d v := by
  simpa [RegResult] using h

theorem SameRegs.of_cacheAccess (h : SameRegs (s.cacheAccess q) t) : SameRegs s t := by
  simpa [SameRegs] using h

theorem SameMemory.of_cacheAccess (h : SameMemory (s.cacheAccess q) t) : SameMemory s t := by
  simpa [SameMemory] using h

/-- R570: the caches and the records that one request leaves, and the parameters, which it does not touch. -/
theorem SameCaches.of_cacheAccess (h : SameCaches (s.cacheAccess q) t) :
    t.l1 = (s.cacheAccess q).l1 ∧ t.l2 = (s.cacheAccess q).l2 ∧ t.out = (s.cacheAccess q).out ∧
    t.params = s.params := by
  obtain ⟨hl1, hl2, hparams, hout⟩ := h
  exact ⟨hl1, hl2, hout, hparams.trans (s.cacheAccess_params q)⟩

end

/-! ### The cell write and the going on to `pc + 1` -/

theorem State.memWrite_sameRegs (s : State) (a : Nat) (v : Word) : SameRegs s (s.memWrite a v) :=
  fun r => s.readReg_memWrite a v r

theorem State.memWrite_sameCaches (s : State) (a : Nat) (v : Word) : SameCaches s (s.memWrite a v) :=
  ⟨rfl, rfl, rfl, rfl⟩

/-- An instruction that goes on with `pc + 1` does so whatever its effects were (R112, R133). -/
theorem effects_retire_nextPc_wentOn (i : Instr) (s : State) : WentOn s ((effects i s).retire s.nextPc) :=
  State.retire_nextPc_wentOn (effects_pc i s) (effects_steps i s) (effects_status i s)

/-! ### The two instructions -/

/-- Settles O20: the register write after the LOAD request; the cell loaded is the one before it, the request keeping
memory. -/
theorem lwLoadsTheCell : Obligations.LwLoadsTheCell := by
  refine ⟨wordsDecodeTo_of_opcode (op := opLw) fun _ => .lw, fun b a imm s => ?_⟩
  intro ea u
  have loaded : u.memRead ea.toNat = s.mem.read ea.toNat := by rw [State.memRead, State.cacheAccess_mem]
  have written : RegResult u (u.writeReg b (u.memRead ea.toNat)) b (s.mem.read ea.toNat) :=
    loaded ▸ u.writeReg_regResult b _
  exact ⟨_, exec_eq _ s, (written.retire _).of_cacheAccess, effects_retire_nextPc_wentOn (.lw b a imm) s,
    ((u.writeReg_sameMemory b _).retire _).of_cacheAccess, ((u.writeReg_sameCaches b _).retire _).of_cacheAccess⟩

/-- Settles O21: the cell write after the STORE request, read back by R201. -/
theorem swStoresToTheCell : Obligations.SwStoresToTheCell := by
  refine ⟨wordsDecodeTo_of_opcode (op := opSw) fun _ => .sw, fun b a imm s => ?_⟩
  intro ea u
  have written : ∀ x, ((u.memWrite ea.toNat (s.readReg b)).retire s.nextPc).mem.read x =
      if x % 8192 = ea.toNat then s.readReg b else s.mem.read x := fun x => by
    rw [State.retire_mem, State.memWrite_mem, State.cacheAccess_mem, Memory.read_write_addr]
  exact ⟨_, exec_eq _ s, written, effects_retire_nextPc_wentOn (.sw b a imm) s,
    ((u.memWrite_sameRegs _ _).retire _).of_cacheAccess, ((u.memWrite_sameCaches _ _).retire _).of_cacheAccess⟩

end Sys2Proof.Machine

/-! ## The runtime fault (spec/60_exceptions.md)

A `Reserved` word is the only source of the fault: the finish of an instruction never ends Faulted, so no instruction
raises it (R600), and where it is raised nothing but the status changes (R603). -/

namespace Sys2Proof.Machine

section
variable {s t : State}

/-! ### The two readings of a `Reserved` word (R602) -/

theorem State.execReserved_of_fault (h : s.params.onReserved = .fault) (w : Word) :
    s.execReserved w = s.raiseIllegalInstruction w := by
  rw [State.execReserved, h]

theorem State.execReserved_of_nop (h : s.params.onReserved = .nop) (w : Word) :
    s.execReserved w = s.retire s.nextPc := by
  rw [State.execReserved, h]
  rfl

/-! ### Where a fault comes from (R600, R603) -/

/-- R600: an instruction's effects keep the status Running, and its finish halts at most. -/
theorem exec_not_faulted {i : Instr} (hr : s.status = .running) (h : exec i s = .next t) (why : RunFault) :
    t.status ≠ .faulted why := by
  rw [exec_eq] at h
  injection h with h
  rw [← h]
  exact State.retire_not_faulted ((effects_status i s).trans hr) (newPc i s) why

theorem step_faulted_cases {why : RunFault} (h : step s = .next t) (hfaulted : t.status = .faulted why) :
    (∃ f, decode s.fetch = .reserved f) ∧ s.params.onReserved = .fault ∧ t = s.raiseIllegalInstruction s.fetch := by
  obtain ⟨hr, ⟨i, -, hexec⟩ | ⟨f, hd, rfl⟩⟩ := step_cases h
  · exact absurd hfaulted (exec_not_faulted hr hexec why)
  · obtain ⟨hmode, e⟩ | ⟨-, e⟩ := s.execReserved_cases s.fetch
    · exact ⟨⟨f, hd⟩, hmode, e⟩
    · rw [e] at hfaulted
      exact absurd hfaulted (State.retire_not_faulted hr s.nextPc why)

end

/-! ### The two statements -/

/-- Settles O26: under `fault` the step is the raise alone; under `nop` it is the finish alone, at `pc + 1`. -/
theorem reservedWordFaultsOrGoesOn : Obligations.ReservedWordFaultsOrGoesOn := by
  intro s f hr hd
  rw [← State.fetch_eq] at hd ⊢
  rw [step_of_reserved hr hd]
  refine ⟨fun hfault => ?fault, fun hnop => ?nop⟩
  case fault =>
    rw [State.execReserved_of_fault hfault, State.raiseIllegalInstruction]
  case nop =>
    rw [State.execReserved_of_nop hnop]
    exact ⟨_, rfl, State.retire_nextPc_wentOn rfl rfl rfl, s.retire_frame s.nextPc⟩

/-- Settles O27: of all that a step can do only the raise ends Faulted. -/
theorem faultedStateIsTheStateBefore : Obligations.FaultedStateIsTheStateBefore := by
  intro s t why hstep hfaulted
  obtain ⟨hreserved, hmode, rfl⟩ := step_faulted_cases hstep hfaulted
  exact ⟨hreserved, hmode, (Status.faulted.inj hfaulted).symm, rfl⟩

end Sys2Proof.Machine

/-! ## Reset, the checks before the run and boot (spec/70_reset_and_hazards.md)

Each check is said once as an equivalence: the texts it accepts, with what it makes of them. The obligations about the
checks read it off; the invariant of a booted machine rests on what acceptance says of the numbers and the words. -/

namespace Sys2Proof

theorem CacheCfg.divisible_iff (c : CacheCfg) : c.divisible = true ↔ c.size % (c.assoc * c.blockSize) = 0 :=
  beq_iff_eq

/-- A configuration as R711 writes it. -/
def CacheCfg.integers (c : CacheCfg) : List Nat := [c.size, c.assoc, c.blockSize]

theorem CacheCfg.wellFormed_iff (c : CacheCfg) :
    c.wellFormed = true ↔ (∀ n ∈ c.integers, 0 < n) ∧ c.divisible = true := by
  simp [CacheCfg.wellFormed, CacheCfg.positive, CacheCfg.integers, and_assoc]

end Sys2Proof

namespace Sys2Proof.Machine

/-! ### The configuration check (R711) -/

/-- The integers of a configuration text (R711): the triple of L1, then that of L2 if there is one. -/
def configIntegers (c1 : CacheCfg) : Option CacheCfg → List Nat
  | none => c1.integers
  | some c2 => c1.integers ++ c2.integers

theorem configIntegers_length (c1 : CacheCfg) (c2 : Option CacheCfg) :
    (configIntegers c1 c2).length = 3 ∨ (configIntegers c1 c2).length = 6 := by
  cases c2 with
  | none => exact .inl rfl
  | some c => exact .inr rfl

theorem positiveInteger_pos {t : List Char} {n : Nat} (h : positiveInteger t = some n) : 0 < n := by
  obtain ⟨m, -, hm⟩ := Option.bind_eq_some_iff.1 h
  obtain ⟨hpos, hmn⟩ := Option.ite_none_right_eq_some.1 hm
  exact Option.some.inj hmn ▸ hpos

theorem positiveIntegers_eq_some_iff {ts : List (List Char)} {ns : List Nat} :
    positiveIntegers ts = some ns ↔ ts.map positiveInteger = ns.map some := by
  induction ts generalizing ns with
  | nil => cases ns <;> simp [positiveIntegers]
  | cons t ts ih => cases ns <;> simp [positiveIntegers, Option.bind_eq_some_iff, ih]

/-- Every number of an accepted token list is positive. -/
theorem pos_of_map_positiveInteger {ts : List (List Char)} {ns : List Nat}
    (h : ts.map positiveInteger = ns.map some) {n : Nat} (hn : n ∈ ns) : 0 < n := by
  obtain ⟨t, -, ht⟩ := List.mem_map.1 (h ▸ List.mem_map_of_mem hn : some n ∈ ts.map positiveInteger)
  exact positiveInteger_pos ht

theorem configOf_eq_ok_iff {ns : List Nat} {c1 : CacheCfg} {c2 : Option CacheCfg} :
    configOf ns = .ok (c1, c2) ↔
      ns = configIntegers c1 c2 ∧ c1.divisible = true ∧ ∀ c, c2 = some c → c.divisible = true := by
  constructor
  · intro h
    unfold configOf at h
    split at h
    case h_1 =>
      split at h
      case isTrue h1 => cases h; exact ⟨rfl, h1, nofun⟩
      case isFalse => cases h
    case h_2 =>
      split at h
      case isFalse => cases h
      case isTrue h1 =>
        split at h
        case isTrue h2 => cases h; exact ⟨rfl, h1, fun c hc => Option.some.inj hc ▸ h2⟩
        case isFalse => cases h
    case h_3 => cases h
  · rintro ⟨rfl, h1, h2⟩
    cases c2 with
    | none => exact if_pos h1
    | some c => exact (if_pos h1).trans (if_pos (h2 c rfl))

/-- R711: a text is accepted as a configuration exactly when its tokens are that configuration's integers, each
positive, and every triple is divisible. -/
theorem checkConfig_eq_ok_iff {text : List Char} {c1 : CacheCfg} {c2 : Option CacheCfg} :
    checkConfig text = .ok (c1, c2) ↔
      (splitCommas text).map positiveInteger = (configIntegers c1 c2).map some ∧ c1.divisible = true ∧
        ∀ c, c2 = some c → c.divisible = true := by
  constructor
  · intro h
    simp only [checkConfig] at h
    split at h
    case isFalse => cases h
    case isTrue =>
      split at h
      case h_1 => cases h
      case h_2 ns hns =>
        obtain ⟨rfl, hdiv⟩ := configOf_eq_ok_iff.1 h
        exact ⟨positiveIntegers_eq_some_iff.1 hns, hdiv⟩
  · rintro ⟨htokens, hdiv⟩
    have hlength : (splitCommas text).length = (configIntegers c1 c2).length := by
      simpa only [List.length_map] using congrArg List.length htokens
    simp only [checkConfig]
    rw [if_pos (hlength ▸ configIntegers_length c1 c2), positiveIntegers_eq_some_iff.2 htokens]
    exact configOf_eq_ok_iff.2 ⟨rfl, hdiv⟩

/-- R151: an accepted configuration is a legal one. -/
theorem wellFormed_of_checkConfig {text : List Char} {c1 : CacheCfg} {c2 : Option CacheCfg}
    (h : checkConfig text = .ok (c1, c2)) :
    c1.wellFormed = true ∧ ∀ c, c2 = some c → c.wellFormed = true := by
  obtain ⟨htokens, h1, h2⟩ := checkConfig_eq_ok_iff.1 h
  have hpos : ∀ n ∈ configIntegers c1 c2, 0 < n := fun n => pos_of_map_positiveInteger htokens
  simp only [CacheCfg.wellFormed_iff]
  cases c2 with
  | none => exact ⟨⟨hpos, h1⟩, nofun⟩
  | some c =>
    obtain ⟨hpos1, hpos2⟩ := List.forall_mem_append.1 hpos
    exact ⟨⟨hpos1, h1⟩, fun c' hc => Option.some.inj hc ▸ ⟨hpos2, h2 c rfl⟩⟩

/-- Settles O51: the two forms of what the check accepts, and the check of the token count before any other. -/
theorem configurationCheck : Obligations.ConfigurationCheck := by
  intro text
  refine ⟨fun c1 => ?one, fun c1 c2 => ?two, fun h3 h6 => if_neg (not_or.2 ⟨h3, h6⟩)⟩
  case one =>
    rw [checkConfig_eq_ok_iff]
    simp [configIntegers, CacheCfg.integers, CacheCfg.divisible_iff]
  case two =>
    rw [checkConfig_eq_ok_iff]
    simp [configIntegers, CacheCfg.integers, CacheCfg.divisible_iff]

/-! ### The image check (R712) -/

/-- One line of an accepted image: it is well formed, and its address is its position, a cell of memory. -/
theorem loadImageFrom_cons_eq_ok_iff {k : Nat} {line : List Char} {rest : List (List Char)} {ws : List Word} :
    loadImageFrom k (line :: rest) = .ok ws ↔
      ∃ w ws', ws = w :: ws' ∧ parseImageLine line = some (k, w) ∧ k < 8192 ∧
        loadImageFrom (k + 1) rest = .ok ws' := by
  rw [loadImageFrom]
  constructor
  · intro h
    split at h
    case h_1 => cases h
    case h_2 a w hline =>
      split at h
      case isTrue => cases h
      case isFalse hlt =>
        split at h
        case isTrue => cases h
        case isFalse hak =>
          obtain rfl : a = k := not_not.1 hak
          split at h
          case h_1 ws' hrest => cases h; exact ⟨w, ws', rfl, hline, not_le.1 hlt, hrest⟩
          case h_2 => cases h
  · rintro ⟨w, ws', rfl, hline, hlt, hrest⟩
    simp [hline, hrest, hlt]

theorem loadImageFrom_eq_ok_iff {k : Nat} (hk : k ≤ 8192) {lines : List (List Char)} {ws : List Word} :
    loadImageFrom k lines = .ok ws ↔
      k + lines.length ≤ 8192 ∧ lines.map parseImageLine = (ws.zipIdx k).map (fun p => some (p.2, p.1)) := by
  induction lines generalizing k ws with
  | nil => cases ws <;> simp [loadImageFrom, hk]
  | cons line rest ih =>
    rw [loadImageFrom_cons_eq_ok_iff]
    constructor
    · rintro ⟨w, ws', rfl, hline, hlt, hrest⟩
      obtain ⟨hlength, hmap⟩ := (ih hlt).1 hrest
      exact ⟨by rw [List.length_cons]; omega, by simp [hline, hmap]⟩
    · rintro ⟨hlength, hmap⟩
      rw [List.length_cons] at hlength
      cases ws with
      | nil => simp at hmap
      | cons w ws' =>
        obtain ⟨hline, hmap⟩ := List.cons.inj hmap
        exact ⟨w, ws', rfl, hline, by omega, (ih (by omega)).2 ⟨by omega, hmap⟩⟩

/-- Settles O52: the image check from position 0 on. -/
theorem imageCheck : Obligations.ImageCheck := by
  intro lines ws
  rw [loadImage, loadImageFrom_eq_ok_iff (Nat.zero_le _), Nat.zero_add]

/-- R712: an accepted image fits in memory. -/
theorem length_le_of_loadImage {lines : List (List Char)} {ws : List Word} (h : loadImage lines = .ok ws) :
    ws.length ≤ 8192 := by
  obtain ⟨hlength, hmap⟩ := (imageCheck lines ws).1 h
  have : lines.length = ws.length := by simpa using congrArg List.length hmap
  omega

/-! ### Boot (R700) -/

/-- R712 (D13): cell `k` of an image's memory holds word `k`, and 0 beyond the image. -/
theorem Memory.read_ofImage (ws : List Word) (a : Nat) : (Memory.ofImage ws).read a = ws.getD (a % 8192) 0#16 :=
  (Memory.lookup_ofImageFrom 0 ws (a % 8192)).trans (if_neg (Nat.not_lt_zero _))

/-- A legal configuration and an image that fits give a machine that meets the invariant: reset's, with the image's
memory. -/
theorem State.booted_inv (p : Params) {c1 : CacheCfg} {c2 : Option CacheCfg} {ws : List Word}
    (h1 : c1.wellFormed = true) (h2 : ∀ c, c2 = some c → c.wellFormed = true) (hws : ws.length ≤ 8192) :
    (State.booted p c1 c2 ws).Inv :=
  { State.resetOf_inv p h1 h2 with mem_wf := Memory.ofImage_wf hws }

section
variable {p : Params} {config : List Char} {image : List (List Char)}

theorem boot_of_configError {why : ConfigError} (h : checkConfig config = .error why) :
    boot p config image = .fatal (.configFatal why) := by
  rw [boot, h]

theorem boot_of_imageError {cfgs : CacheCfg × Option CacheCfg} {why : BootError}
    (hconfig : checkConfig config = .ok cfgs) (himage : loadImage image = .error why) :
    boot p config image = .fatal why := by
  simp only [boot, hconfig, himage]

theorem boot_of_accepted {c1 : CacheCfg} {c2 : Option CacheCfg} {ws : List Word}
    (hconfig : checkConfig config = .ok (c1, c2)) (himage : loadImage image = .ok ws) :
    boot p config image = .ready (State.booted p c1 c2 ws) := by
  simp only [boot, hconfig, himage]

end

/-- Settles O53: the three outcomes of the two checks, and the booted machine read off reset and the image. -/
theorem bootOrderAndLoadedMachine : Obligations.BootOrderAndLoadedMachine := by
  intro p config image
  refine ⟨fun why => boot_of_configError, fun cfgs why => boot_of_imageError, fun c1 c2 ws hconfig himage => ?_⟩
  obtain ⟨h1, h2⟩ := wellFormed_of_checkConfig hconfig
  exact ⟨State.booted p c1 c2 ws, boot_of_accepted hconfig himage,
    State.booted_inv p h1 h2 (length_le_of_loadImage himage), rfl, rfl, rfl, rfl, rfl, rfl, Memory.read_ofImage ws⟩

end Sys2Proof.Machine
